-- ==== Sys2Proof/Word.lean ====
section
/-! DEFINITION. The only datum of the block, the byte (spec 00_scope R8, 10_state R36). -/

namespace Sys2Proof

/-- A buffer element and every datum moved: 8 bits (R8, `BYTE`). -/
abbrev Byte := BitVec 8

end Sys2Proof
end

