-- ==== Sys2Proof/Config.lean ====
section
/-! DEFINITION. What the spec fixes once and for all, and the free values it leaves open. -/

namespace Sys2Proof

/-- `NMAX`: the greatest count a record can carry (spec 00_scope R8, 30_encoding R87 (b)). -/
def Config.maxCount : Nat := 127

/-- The length in bytes of the longest record, `LITERAL 127` (spec 40_rle_records R106 (b)). -/
def Config.maxRecordLength : Nat := 128

/-- FREE VALUE (log entry 11): a byte of the buffer a unit was writing when it was reset (spec 70 R201, U9). -/
opaque Config.freeByte : Nat → Byte

/-- FREE VALUE (log entry 10): what a 2-bit error port shows while its unit is in `RUN` (spec 10_state R35, U8). -/
opaque Config.freeErr : Nat → BitVec 2

/-- FREE VALUE (log entry 10): what an index or count port shows while its unit is in `RUN` (spec 10_state R35, U8). -/
opaque Config.freeIndex : Nat → Nat

end Sys2Proof
end

