-- ==== Sys2Proof/Syntax.lean ====
section
/-! DEFINITION. The instructions: the records of the encoded stream (spec 30_encoding R80, R90, R94). -/

namespace Sys2Proof

/-- One record. The source's own type is `Record = Repeat{count, value} | Literal{count, bytes}` (R90). The host commands
and the element operation of the delta unit are encoded in no stream (R88): they are `Machine.Command` and `Machine.Turn`. -/
inductive Instr where
  /-- `REPEAT n, v`: the value byte, `count` times (R82, R103). -/
  | repeatRun (count : Nat) (value : Byte)
  /-- `LITERAL n, b1, ..., bn`: the `count` literal bytes (R83, R105). -/
  | literalRun (count : Nat) (bytes : List Byte)
deriving DecidableEq, Repr

end Sys2Proof
end

