-- ==== Sys2Proof/Machine/State.lean ====
section
/-! DEFINITION. The state of the block and of the host around it, why a step can stop, and the state after reset
(spec 10_state, 20_memory R50 to R52, 70 R200). Index registers are natural numbers (R8, R11, D3; log entry 1). -/

namespace Sys2Proof.Machine

/-- A unit's status; the 2-bit codes are `Status.code` (R30, R33). -/
inductive Status where
  /-- No invocation since reset. -/
  | idle
  /-- An invocation is in progress: the unit has an enabled step. -/
  | run
  /-- The last invocation ended with no error. -/
  | done
  /-- The last invocation stopped on an error. -/
  | err
deriving DecidableEq, Repr

/-- The one error code space both units share; the 2-bit codes are `ErrCode.code` (R31). -/
inductive ErrCode where
  | none
  /-- Raised by `DEC` (R171). -/
  | truncatedInput
  /-- Raised by `DEC` (R172). -/
  | outputOverflow
  /-- Raised by `UND.START` (R173). -/
  | lengthMismatch
deriving DecidableEq, Repr

/-- The working registers of the decoder unit (R21). -/
structure DecRegs where
  /-- `DEC.I`, the scan index and program counter (R24). -/
  i : Nat
  /-- `DEC.O`, the write cursor, also named `COUNT` (R26). -/
  o : Nat
  /-- `DEC.LEN`, the sampled stream length. -/
  len : Nat
  /-- `DEC.CAP`, the sampled output capacity. -/
  cap : Nat
  status : Status
  err : ErrCode
deriving DecidableEq, Repr

/-- The working registers of the delta unit (R22). -/
structure UndRegs where
  /-- `UND.J`, the element index. -/
  j : Nat
  /-- `UND.N`, the sampled common length. -/
  n : Nat
  status : Status
  err : ErrCode
deriving DecidableEq, Repr

/-- The four buffer spaces (R50). -/
inductive Space where
  | inp
  | out
  | base
  | enc
deriving DecidableEq, Repr

/-- A host buffer: a window of host memory. Index `k` of the port it is bound to is address `base + k` (R51, R62; log entry 2). -/
structure Buffer where
  base : Nat
  size : Nat
deriving DecidableEq, Repr

/-- Which buffer is bound to which port; nothing is bound after reset (R39, R52). A binding outlives its invocation: it stands
until the host binds the port anew or unbinds it, or a reset (log entry 23). -/
structure Bindings where
  inp : Option Buffer
  out : Option Buffer
  base : Option Buffer
  enc : Option Buffer
deriving DecidableEq, Repr

/-- The values the host drives on the input ports (R29, R32). -/
structure InPorts where
  /-- `dec_len_in`. -/
  decLen : Nat
  /-- `dec_cap_in`. -/
  decCap : Nat
  /-- `und_blen_in`. -/
  undBlen : Nat
  /-- `und_elen_in`. -/
  undElen : Nat
deriving DecidableEq, Repr

/-- The names of the input ports (R29, R32). -/
inductive InPort where
  | decLen
  | decCap
  | undBlen
  | undElen
deriving DecidableEq, Repr

/-- The output ports a host can read (R29, R32). -/
inductive OutPort where
  | decStatus
  | decErr
  | decCount
  | decI
  | undStatus
  | undErr
  | undJ
deriving DecidableEq, Repr

/-- The two units (R15). -/
inductive UnitName where
  | dec
  | und
deriving DecidableEq, Repr

/-- A move of the host (R158, R159, R161). -/
inductive Command where
  /-- The reset event, with the units whose start commands coincide with it: those commands are lost (R200, R201). -/
  | reset (coinciding : List UnitName)
  /-- `DEC.START` (R150). -/
  | decStart
  /-- `UND.START` (R155). -/
  | undStart
  /-- Reading an output port (R152, R157). -/
  | readPort (p : OutPort)
  /-- Binding a buffer to a port, or unbinding it (R52). -/
  | bind (sp : Space) (buffer : Option Buffer)
  /-- Driving an input port (R29, R32, R211). -/
  | drive (p : InPort) (value : Nat)
  /-- The host's write of one byte of its memory (R66, R158). -/
  | write (address : Nat) (value : Byte)
  /-- The host's read of one byte of its memory (R66, R158). -/
  | read (address : Nat)
deriving DecidableEq, Repr

/-- Whose move comes next: one of the three agents (R16, R18). -/
inductive Turn where
  | dec
  | und
  | host (c : Command)
deriving DecidableEq, Repr

/-- Host memory: the bytes somebody has written, addresses strictly rising. An unlisted byte holds no value (R61; log entry 3). -/
abbrev Memory := List Host.Cell

/-- The whole machine. Every line of INVENTORY.md's `State` heading is a field here. -/
structure State where
  dec : DecRegs
  und : UndRegs
  binding : Bindings
  ports : InPorts
  mem : Memory
  /-- A `DEC.START` was accepted and the host has not yet read `DONE` or `ERR` (R207). -/
  decHeld : Bool
  /-- The same for `UND` (R207). -/
  undHeld : Bool
  /-- The model's own: the moves still to come, in order (R18; log entry 4). -/
  turns : List Turn
  /-- The model's own: what the host has read, newest first. -/
  seen : List Nat
  /-- The model's own: how many free values have been used (log entries 10, 11). -/
  free : Nat
deriving DecidableEq, Repr

/-- Why a step stops with no behaviour of the spec to follow. -/
inductive Fault where
  /-- A unit's access at or past its declared bound. Raised by `readByte` and `storeByte`, only in states that no run
  reaches (R58, U5; log entry 13). Safe. -/
  | outsideBound
  /-- A unit's access below its declared bound but outside the buffer that is bound. Raised by `readByte` and `storeByte`,
  only in states that no run reaches, because a start with a false length is refused (R204; log entry 13). Safe. -/
  | outsideBuffer
  /-- A read of a byte nobody has written. Raised by `readByte` and by the host's `read` (R61, U12; log entry 3). Safe. -/
  | unwrittenByte
deriving DecidableEq, Repr

/-- Why the model gives a move no meaning: the spec says that the host has no such move (U10). -/
inductive Refusal where
  /-- An instruction that has no meaning yet. Raised by no arm of `exec`. Safe. -/
  | notModelled (mnemonic : String)
  /-- A start command whose length or capacity exceeds the bound buffer. Raised by `decStart` and `undStart`
  (R204, U10; log entries 6, 8, 9). Safe. -/
  | falseLength
  /-- A start command on overlapping buffers of its own unit, or on buffers that collide with those of the other unit while that
  is in `RUN`. Raised by `decStart` and `undStart` (R63, R208, R209, U10; log entries 6, 25). Safe. -/
  | overlappingBuffers
  /-- The host touches or rebinds a buffer it has handed to a unit. Raised by `bind`, `write` and `read`
  (R207, U10; log entries 6, 7). Safe. -/
  | bufferInUse
deriving DecidableEq, Repr

/-- What a step of this machine answers. -/
abbrev Answer := Host.Outcome State Fault Refusal

/-- The decoder's registers after reset (R39). -/
def DecRegs.reset : DecRegs := { i := 0, o := 0, len := 0, cap := 0, status := .idle, err := .none }

/-- The delta unit's registers after reset (R39). -/
def UndRegs.reset : UndRegs := { j := 0, n := 0, status := .idle, err := .none }

/-- No buffer bound to any port (R39). -/
def Bindings.unbound : Bindings := { inp := none, out := none, base := none, enc := none }

/-- The machine right after reset (R39, R200). The spec gives the registers and the bindings; the input ports, the
hand-over bits, the memory and the model's own fields stand at the values of log entries 3 and 12. -/
def State.reset : State where
  dec := DecRegs.reset
  und := UndRegs.reset
  binding := Bindings.unbound
  ports := { decLen := 0, decCap := 0, undBlen := 0, undElen := 0 }
  mem := []
  decHeld := false
  undHeld := false
  turns := []
  seen := []
  free := 0

end Sys2Proof.Machine
end

