-- ==== Sys2Proof/Machine/Flags.lean ====
section
/-! DEFINITION. The block has no condition codes and no arithmetic flags (spec 10_state R28). Its only flag-like state is
the two status fields and the two error fields; here are their codes on the ports (R30, R31, R33) and the one thing a unit
asks of them. -/

namespace Sys2Proof.Machine

/-- The 2-bit status code (R30). -/
def Status.code : Status → BitVec 2
  | .idle => 0
  | .run => 1
  | .done => 2
  | .err => 3

/-- The 2-bit error code (R31). -/
def ErrCode.code : ErrCode → BitVec 2
  | .none => 0
  | .truncatedInput => 1
  | .outputOverflow => 2
  | .lengthMismatch => 3

end Sys2Proof.Machine
end

