-- ==== Sys2Proof/Machine/Ops.lean ====
section
/-! DEFINITION. The named operations over memory, buffers and registers: byte accesses with their bound checks,
raising an error, and what a reset leaves in a buffer (spec 20_memory, 60_exceptions R174, 70 R201). -/

namespace Sys2Proof.Machine

/-- The canonical form of memory: addresses strictly rising. -/
abbrev Memory.wf (m : Memory) : Prop := m.Pairwise fun x y => x.1 < y.1

/-- The byte at an address, if somebody has written it (R60, R61). -/
def Memory.read : Memory → Nat → Option Byte
  | [], _ => none
  | (x, v) :: rest, a => if a = x then some v else Memory.read rest a

/-- Memory with one byte replaced (R60). -/
def Memory.write : Memory → Nat → Byte → Memory
  | [], a, b => [(a, b)]
  | (x, v) :: rest, a, b =>
    if a < x then (a, b) :: (x, v) :: rest
    else if a = x then (a, b) :: rest
    else (x, v) :: Memory.write rest a b

/-- Memory with consecutive bytes replaced, lowest address first. -/
def Memory.writeBytes : Memory → Nat → List Byte → Memory
  | m, _, [] => m
  | m, a, b :: bs => Memory.writeBytes (m.write a b) (a + 1) bs

/-- The address of index `k` of a buffer, if the buffer has that index (R51, R62). -/
def Buffer.address : Option Buffer → Nat → Option Nat
  | none, _ => none
  | some w, k => if k < w.size then some (w.base + k) else none

/-- The real size of what is bound; nothing bound has no bytes (log entry 9). -/
def Buffer.sizeOf : Option Buffer → Nat
  | none => 0
  | some w => w.size

/-- Does the buffer hold the address? -/
def Buffer.holds : Option Buffer → Nat → Bool
  | none, _ => false
  | some w, a => decide (w.base ≤ a) && decide (a < w.base + w.size)

/-- Do two buffers share a byte? (R63) -/
def Buffer.overlap : Option Buffer → Option Buffer → Bool
  | some x, some y =>
    decide (0 < x.size) && decide (0 < y.size) &&
      decide (x.base < y.base + y.size) && decide (y.base < x.base + x.size)
  | _, _ => false

/-- The buffer bound to a port (R52). -/
def State.window (s : State) : Space → Option Buffer
  | .inp => s.binding.inp
  | .out => s.binding.out
  | .base => s.binding.base
  | .enc => s.binding.enc

/-- The declared bound of a space (R50). -/
def State.declared (s : State) : Space → Nat
  | .inp => s.dec.len
  | .out => s.dec.cap
  | .base => s.und.n
  | .enc => s.und.n

/-- The host address behind index `k` of a space, if the bound buffer has that index (R62). -/
def State.address (s : State) (sp : Space) (k : Nat) : Option Nat := Buffer.address (s.window sp) k

/-- What index `k` of a space holds, bound or no bound: for statements about a buffer's contents. -/
def State.peek (s : State) (sp : Space) (k : Nat) : Option Byte :=
  match s.address sp k with
  | none => none
  | some a => s.mem.read a

/-- `MemRead(sp, k, 1)`: a unit's read of one byte, below the declared bound only (R12, R58, R59). -/
def State.readByte (s : State) (sp : Space) (k : Nat) : Except Fault Byte :=
  if k < s.declared sp then
    match s.address sp k with
    | none => .error .outsideBuffer
    | some a =>
      match s.mem.read a with
      | none => .error .unwrittenByte
      | some b => .ok b
  else .error .outsideBound

/-- `MemWrite(sp, k, 1, b)`: a unit's write of one byte, below the declared bound only (R12, R58, R59). -/
def State.storeByte (s : State) (sp : Space) (k : Nat) (b : Byte) : Except Fault State :=
  if k < s.declared sp then
    match s.address sp k with
    | none => .error .outsideBuffer
    | some a => .ok { s with mem := s.mem.write a b }
  else .error .outsideBound

/-- `count` reads at ascending indices (R65). -/
def State.readRun (s : State) (sp : Space) (k : Nat) : Nat → Except Fault (List Byte)
  | 0 => .ok []
  | count + 1 =>
    match s.readByte sp k with
    | .error f => .error f
    | .ok b =>
      match s.readRun sp (k + 1) count with
      | .error f => .error f
      | .ok bs => .ok (b :: bs)

/-- Writes at ascending indices, one byte each (R71). -/
def State.storeRun (s : State) (sp : Space) (k : Nat) : List Byte → Except Fault State
  | [] => .ok s
  | b :: bs =>
    match s.storeByte sp k b with
    | .error f => .error f
    | .ok t => t.storeRun sp (k + 1) bs

/-- `raise E` in a decoder step: `ERR` and `STATUS` written and nothing else. This is the whole of taking an exception
(R174); the way back is a new start command or reset (R179). -/
def State.raise (s : State) (e : ErrCode) : State :=
  { s with dec := { s.dec with err := e, status := .err } }

/-- The two checks of a record, `len` bytes long with count `n`, input first (R103, R105, R171, R172, R176).
The sums are not bounded, so they do not wrap (R11). -/
def State.recordError (s : State) (len n : Nat) : Option ErrCode :=
  if s.dec.i + len > s.dec.len then some .truncatedInput
  else if s.dec.o + n > s.dec.cap then some .outputOverflow
  else none

/-- The lowest `count` bytes of a space at free values: what a reset leaves of a buffer its unit was writing (R201, U9). -/
def State.scramble (s : State) (sp : Space) : Nat → State
  | 0 => s
  | count + 1 =>
    match (s.scramble sp count).address sp count with
    | none => s.scramble sp count
    | some a =>
      { s.scramble sp count with
        mem := (s.scramble sp count).mem.write a (Config.freeByte (s.scramble sp count).free)
        free := (s.scramble sp count).free + 1 }

end Sys2Proof.Machine
end

