-- ==== Sys2Proof/Machine/Commands.lean ====
section
/-! DEFINITION. The host's moves: the start commands, reset, port reads, binding, driving ports, and the host's own
accesses to its memory (spec 42_host_commands, 70_reset_and_hazards). -/

namespace Sys2Proof.Machine

/-- Do the buffers of the two units share memory that one of them writes? Reading the same memory is allowed (R63, R209). -/
def State.unitsCollide (s : State) : Bool :=
  Buffer.overlap s.binding.inp s.binding.enc || Buffer.overlap s.binding.out s.binding.base ||
    Buffer.overlap s.binding.out s.binding.enc

/-- Why a `DEC.START` is outside the spec, if it is: a false length or capacity (R204), overlapping buffers of its own (R63,
R208), or buffers that collide with those of the delta unit while that is in `RUN` (R63, R209, U10; log entry 25). -/
def State.decLaunchProblem (s : State) : Option Refusal :=
  if Buffer.sizeOf s.binding.inp < s.ports.decLen ∨ Buffer.sizeOf s.binding.out < s.ports.decCap then some .falseLength
  else if Buffer.overlap s.binding.inp s.binding.out then some .overlappingBuffers
  else if decide (s.und.status = .run) && s.unitsCollide then some .overlappingBuffers
  else none

/-- The same for an `UND.START` with equal lengths (R204, R63, R208, R209). -/
def State.undLaunchProblem (s : State) : Option Refusal :=
  if Buffer.sizeOf s.binding.base < s.ports.undBlen ∨ Buffer.sizeOf s.binding.enc < s.ports.undElen then some .falseLength
  else if Buffer.overlap s.binding.base s.binding.enc then some .overlappingBuffers
  else if decide (s.dec.status = .run) && s.unitsCollide then some .overlappingBuffers
  else none

/-- `DEC.START` (R150, R151). -/
def decStart (s : State) : Answer :=
  if s.dec.status = .run then .next s
  else
    match s.decLaunchProblem with
    | some r => .refused r
    | none =>
      .next { s with
        dec := { i := 0, o := 0, len := s.ports.decLen, cap := s.ports.decCap, status := .run, err := .none }
        decHeld := true }

/-- `UND.START` (R155, R156, R173). The length check comes first: unequal lengths touch no buffer. -/
def undStart (s : State) : Answer :=
  if s.und.status = .run then .next s
  else if s.ports.undBlen ≠ s.ports.undElen then
    .next { s with und := { j := 0, n := 0, status := .err, err := .lengthMismatch }, undHeld := true }
  else
    match s.undLaunchProblem with
    | some r => .refused r
    | none =>
      .next { s with
        und := { j := 0, n := s.ports.undBlen, status := .run, err := .none }
        undHeld := true }

/-- The bytes a running decoder may have been writing are unspecified after a reset (R201). -/
def State.scrambleOut (s : State) : State := if s.dec.status = .run then s.scramble .out s.dec.cap else s

/-- The same for a running delta unit (R201). -/
def State.scrambleEnc (s : State) : State := if s.und.status = .run then s.scramble .enc s.und.n else s

/-- The reset event: every register of both units and every binding (R39, R200); the written buffer of a running unit
becomes unspecified (R201). The input ports are not state of the block and stay (R39). -/
def State.resetUnits (s : State) : State :=
  { s.scrambleOut.scrambleEnc with
    dec := DecRegs.reset
    und := UndRegs.reset
    binding := Bindings.unbound
    decHeld := false
    undHeld := false }

/-- The reset move; start commands that coincide with it are lost (R201). -/
def doReset (_coinciding : List UnitName) (s : State) : Answer := .next s.resetUnits

/-- Is the port defined now? A status always is, any other port only while its unit is not in `RUN` (R35). -/
def State.portDefined (s : State) : OutPort → Bool
  | .decStatus | .undStatus => true
  | .decErr | .decCount | .decI => decide (s.dec.status ≠ .run)
  | .undErr | .undJ => decide (s.und.status ≠ .run)

/-- The register a port shows (R29, R32). -/
def State.portRegister (s : State) : OutPort → Nat
  | .decStatus => s.dec.status.code.toNat
  | .decErr => s.dec.err.code.toNat
  | .decCount => s.dec.o
  | .decI => s.dec.i
  | .undStatus => s.und.status.code.toNat
  | .undErr => s.und.err.code.toNat
  | .undJ => s.und.j

/-- What an undefined port shows: a free value of the port's width (R35, U8; log entry 10). -/
def freePort : OutPort → Nat → Nat
  | .decErr, k | .undErr, k => (Config.freeErr k).toNat
  | _, k => Config.freeIndex k

/-- Reading a status port that shows `DONE` or `ERR` hands that unit's buffers back to the host (R66, R152, R157, R207). -/
def State.release (s : State) : OutPort → State
  | .decStatus => { s with decHeld := s.decHeld && decide (s.dec.status = .run) }
  | .undStatus => { s with undHeld := s.undHeld && decide (s.und.status = .run) }
  | _ => s

/-- A host read of a port; no side effect on the block (R152). -/
def doReadPort (p : OutPort) (s : State) : Answer :=
  if s.portDefined p then .next { s.release p with seen := s.portRegister p :: s.seen }
  else .next { s with seen := freePort p s.free :: s.seen, free := s.free + 1 }

/-- The unit a space belongs to is still in the hands of its unit (R207). -/
def State.spaceHeld (s : State) : Space → Bool
  | .inp | .out => s.decHeld
  | .base | .enc => s.undHeld

/-- The bindings with one port bound anew. -/
def Bindings.set (b : Bindings) (w : Option Buffer) : Space → Bindings
  | .inp => { b with inp := w }
  | .out => { b with out := w }
  | .base => { b with base := w }
  | .enc => { b with enc := w }

/-- Binding or unbinding a port (R52), which the host must not do to a port of a unit in whose hands its buffers are (R207).
A buffer in one unit's hands may be bound to a port of the other: only a start command looks at bindings (R158; log entry 24). -/
def doBind (sp : Space) (w : Option Buffer) (s : State) : Answer :=
  if s.spaceHeld sp then .refused .bufferInUse else .next { s with binding := s.binding.set w sp }

/-- The input ports with one driven anew. -/
def InPorts.set (p : InPorts) (v : Nat) : InPort → InPorts
  | .decLen => { p with decLen := v }
  | .decCap => { p with decCap := v }
  | .undBlen => { p with undBlen := v }
  | .undElen => { p with undElen := v }

/-- Driving an input port: legal at any time, looked at only by a start command (R211). -/
def doDrive (p : InPort) (v : Nat) (s : State) : Answer := .next { s with ports := s.ports.set v p }

/-- Does the address lie in a buffer that is in the hands of a unit? (R207) -/
def State.addressHeld (s : State) (a : Nat) : Bool :=
  (s.decHeld && (Buffer.holds s.binding.inp a || Buffer.holds s.binding.out a)) ||
    (s.undHeld && (Buffer.holds s.binding.base a || Buffer.holds s.binding.enc a))

/-- The host's write of one byte of its memory (R158, R207). -/
def doWrite (a : Nat) (b : Byte) (s : State) : Answer :=
  if s.addressHeld a then .refused .bufferInUse else .next { s with mem := s.mem.write a b }

/-- The host's read of one byte of its memory (R158, R207). -/
def doRead (a : Nat) (s : State) : Answer :=
  if s.addressHeld a then .refused .bufferInUse
  else
    match s.mem.read a with
    | none => .fault .unwrittenByte
    | some b => .next { s with seen := b.toNat :: s.seen }

/-- One move of the host. -/
def command : Command → State → Answer
  | .reset coinciding, s => doReset coinciding s
  | .decStart, s => decStart s
  | .undStart, s => undStart s
  | .readPort p, s => doReadPort p s
  | .bind sp w, s => doBind sp w s
  | .drive p v, s => doDrive p v s
  | .write a b, s => doWrite a b s
  | .read a, s => doRead a s

end Sys2Proof.Machine
end

