-- ==== Sys2Proof/WellFormed.lean ====
section
/-! DEFINITION. Which records have an encoding (spec 30_encoding R93). -/

namespace Sys2Proof

/-- A record is well-formed when its count fits the 7-bit field and a `LITERAL` holds exactly `count` bytes (R93). -/
def Instr.wf : Instr → Bool
  | .repeatRun count _ => decide (count ≤ Config.maxCount)
  | .literalRun count bytes => decide (count ≤ Config.maxCount) && decide (bytes.length = count)

end Sys2Proof
end

