-- ==== Sys2Proof/Decode.lean ====
section
/-! DEFINITION. Records and bytes: the control byte's fields, the decoder, the encoder, the parse of a whole stream
(spec 30_encoding R81 to R93). -/

namespace Sys2Proof

/-- The mode bit `c[7]`: false is `REPEAT`, true is `LITERAL` (R81, R86). -/
def controlMode (c : Byte) : Bool := c.getLsbD 7

/-- The count `n = c[6:0]`, zero-extended, unscaled and unbiased (R81, R84). -/
def controlCount (c : Byte) : Nat := (c.extractLsb 6 0).toNat

/-- The length in bytes of the record that `c` opens, told from the control byte alone (R89). -/
def recordLength (c : Byte) : Nat := if controlMode c then 1 + controlCount c else 2

/-- Why a byte sequence does not begin with a whole record. There is no other reason: no control byte is illegal (R87). -/
inductive DecodeError where
  /-- There is no byte at all. -/
  | noControlByte
  /-- A `REPEAT` record without its value byte (R91). -/
  | truncatedRepeat
  /-- A `LITERAL` record with fewer than `n` bytes after its control byte (R91). -/
  | truncatedLiteral
deriving DecidableEq, Repr

/-- The record at the front of a byte sequence, and the bytes after it (R82, R83, R84, R89). -/
def decodeRecord : List Byte → Except DecodeError (Instr × List Byte)
  | [] => .error .noControlByte
  | c :: rest =>
    if controlMode c then
      if rest.length < controlCount c then .error .truncatedLiteral
      else .ok (.literalRun (controlCount c) (rest.take (controlCount c)), rest.drop (controlCount c))
    else
      match rest with
      | [] => .error .truncatedRepeat
      | v :: rest' => .ok (.repeatRun (controlCount c) v, rest')

/-- `bytes(r)`, the assembly of one record (R93). -/
def encode : Instr → List Byte
  | .repeatRun count value => [BitVec.ofNat 8 count, value]
  | .literalRun count bytes => BitVec.ofNat 8 (128 + count) :: bytes

/-- `bytes(r1, ..., rm)`, the assembly of a record list (R93). -/
def assemble : List Instr → List Byte
  | [] => []
  | r :: rs => encode r ++ assemble rs

/-- The count field of a record: how many bytes it produces (R81, R84). -/
def Instr.count : Instr → Nat
  | .repeatRun count _ => count
  | .literalRun count _ => count

/-- The length of a record in the stream: 2, or `1 + n` (R80, R89). -/
def Instr.length : Instr → Nat
  | .repeatRun _ _ => 2
  | .literalRun count _ => 1 + count

/-- The expansion of a record: the byte sequence it produces (R15, R108). -/
def Instr.expansion : Instr → List Byte
  | .repeatRun count value => List.replicate count value
  | .literalRun _ bytes => bytes

/-- The expanded length of a record list: the sum of the counts (R92). -/
def expandedLength : List Instr → Nat
  | [] => 0
  | r :: rs => r.count + expandedLength rs

/-- The expansion of a record list, in stream order (R108). -/
def expandAll : List Instr → List Byte
  | [] => []
  | r :: rs => r.expansion ++ expandAll rs

/-- What the parse of a stream gives: its complete records, and the index of the truncated record if there is one (R90). -/
structure Parsed where
  records : List Instr
  truncatedAt : Option Nat
deriving DecidableEq, Repr

/-- `parse(s, at)` on the bytes that are left, `fuel` bounding the number of records (R90). -/
def parseFrom : Nat → List Byte → Nat → Parsed
  | 0, [], _ => ⟨[], none⟩
  | 0, _ :: _, pos => ⟨[], some pos⟩
  | fuel + 1, s, pos =>
    match s with
    | [] => ⟨[], none⟩
    | c :: rest =>
      match decodeRecord (c :: rest) with
      | .error _ => ⟨[], some pos⟩
      | .ok (r, rest') =>
        ⟨r :: (parseFrom fuel rest' (pos + r.length)).records,
         (parseFrom fuel rest' (pos + r.length)).truncatedAt⟩

/-- `parse(s, 0)`: a record takes at least one byte, so the length of the stream is fuel enough (R90). -/
def parse (s : List Byte) : Parsed := parseFrom s.length s 0

/-- A stream is well-formed when its records tile it exactly (R90). -/
def wellFormedStream (s : List Byte) : Bool := (parse s).truncatedAt.isNone

/-- The `len` lowest bytes of `w`, first the least significant: a record laid out as the opcode table numbers its bits. -/
def bytesOfNat : Nat → Nat → List Byte
  | 0, _ => []
  | len + 1, w => BitVec.ofNat 8 w :: bytesOfNat len (w / 256)

/-- A table word as the stream holds it: `nbits` bits of `w`, then zeros up to the longest record. -/
def tableBytes (nbits w : Nat) : List Byte := bytesOfNat Config.maxRecordLength (w % 2 ^ nbits)

/-- The record this decoder reads from a word of the opcode table (the host's question). -/
def decodeTableWord (nbits w : Nat) : Option Instr :=
  match decodeRecord (tableBytes nbits w) with
  | .ok (i, _) => some i
  | .error _ => none

end Sys2Proof
end

