-- ==== Sys2Proof/Machine/Operands.lean ====
section
/-! DEFINITION. The operand forms: every operand of a record comes from the stream itself, at `DEC.I` (spec 30_encoding
R84, 40_rle_records R114); the delta unit's two operands stand at `UND.J` (41_delta_reversal R139). -/

namespace Sys2Proof.Machine

/-- The control-byte fetch at `DEC.I` (R101, R114). -/
def State.fetchControl (s : State) : Except Fault Byte := s.readByte .inp s.dec.i

/-- The body of a record `len` bytes long: the value byte at `DEC.I + 1`, or the literal bytes from `DEC.I + 1` on (R114). -/
def State.fetchBody (s : State) (len : Nat) : Except Fault (List Byte) := s.readRun .inp (s.dec.i + 1) (len - 1)

/-- The output writes of a record, at `OUT[DEC.O + k]` (R114). -/
def State.storeOutput (s : State) (bytes : List Byte) : Except Fault State := s.storeRun .out s.dec.o bytes

/-- The base read, at `BASE[UND.J]` (R139). -/
def State.fetchBase (s : State) : Except Fault Byte := s.readByte .base s.und.j

/-- The delta read, at `ENC[UND.J]` (R139). -/
def State.fetchDelta (s : State) : Except Fault Byte := s.readByte .enc s.und.j

/-- The result write, at `ENC[UND.J]` (R139). -/
def State.storeResult (s : State) (b : Byte) : Except Fault State := s.storeByte .enc s.und.j b

end Sys2Proof.Machine
end

