-- ==== Sys2Proof/Machine/Records.lean ====
section
/-! DEFINITION. The two record kinds (spec 40_rle_records R103 to R107). -/

namespace Sys2Proof.Machine

/-- A record `len` bytes long with count `n` that produces `bytes`: both checks before any write (R175), then the writes in
ascending order, then the two index registers (R103, R105). -/
def completeRecord (len n : Nat) (bytes : List Byte) (s : State) : Answer :=
  match s.recordError len n with
  | some e => .next (s.raise e)
  | none =>
    match s.storeOutput bytes with
    | .error f => .fault f
    | .ok t => .next { t with dec := { t.dec with i := t.dec.i + len, o := t.dec.o + n } }

/-- `REPEAT n, v` (R103, R104). -/
def execRepeat (count : Nat) (value : Byte) (s : State) : Answer :=
  completeRecord 2 count (List.replicate count value) s

/-- `LITERAL n, b1, ..., bn` (R105, R106). -/
def execLiteral (count : Nat) (bytes : List Byte) (s : State) : Answer :=
  completeRecord (1 + count) count bytes s

end Sys2Proof.Machine
end

