-- ==== Sys2Proof/Machine/Dispatch.lean ====
section
/-! DEFINITION. One arm per record kind. -/

namespace Sys2Proof.Machine

/-- What a record does, whichever it is (R100). -/
def exec (i : Instr) (s : State) : Host.Outcome State Fault Refusal :=
  match i with
  | .repeatRun count value => Sys2Proof.Machine.execRepeat count value s
  | .literalRun count bytes => Sys2Proof.Machine.execLiteral count bytes s

end Sys2Proof.Machine
end

