-- ==== Sys2Proof/Machine/DecStep.lean ====
section
/-! DEFINITION. The decoder unit's step: end of scan, or fetch, decode and execution of one record, or one error
(spec 40_rle_records R100 to R102). -/

namespace Sys2Proof.Machine

/-- One record at `DEC.I`. The control byte is read first, then both checks are made, then the body is read (R101, R103,
R105, R175); so a record that raises an error has no byte of its body read (log entry 14). -/
def decRecord (s : State) : Answer :=
  match s.fetchControl with
  | .error f => .fault f
  | .ok c =>
    match s.recordError (recordLength c) (controlCount c) with
    | some e => .next (s.raise e)
    | none =>
      match s.fetchBody (recordLength c) with
      | .error f => .fault f
      | .ok body =>
        match decodeRecord (c :: body) with
        | .error _ => .next (s.raise .truncatedInput)
        | .ok (i, _) => exec i s

/-- `DEC.step`, for a unit in `RUN` (R100, R102). -/
def decStep (s : State) : Answer :=
  if s.dec.i = s.dec.len then .next { s with dec := { s.dec with status := .done } }
  else decRecord s

end Sys2Proof.Machine
end

