-- ==== Sys2Proof/Machine/Undiff.lean ====
section
/-! DEFINITION. The delta unit's step and its arithmetic (spec 41_delta_reversal R130 to R133). -/

namespace Sys2Proof.Machine

/-- `(b - e) mod 256`, base minus encoded: 8 bits, wrapping (R132). -/
def undiffByte (b e : Byte) : Byte := b - e

/-- One element: `ENC[J] <- (BASE[J] - ENC[J]) mod 256`, then `J <- J + 1`; both reads before the write (R131, R65). -/
def undElement (s : State) : Answer :=
  match s.fetchBase with
  | .error f => .fault f
  | .ok b =>
    match s.fetchDelta with
    | .error f => .fault f
    | .ok e =>
      match s.storeResult (undiffByte b e) with
      | .error f => .fault f
      | .ok t => .next { t with und := { t.und with j := t.und.j + 1 } }

/-- `UND.step`, for a unit in `RUN` (R131, R133). -/
def undStep (s : State) : Answer :=
  if s.und.j = s.und.n then .next { s with und := { s.und with status := .done } }
  else undElement s

end Sys2Proof.Machine
end

