-- ==== Sys2Proof/Machine/Turns.lean ====
section
/-! DEFINITION. One move of one agent, the moves a unit makes when nothing else is to come, and placing a record where the
decoder fetches next (spec 00_scope R16, R18, R19; 70 R212). -/

namespace Sys2Proof.Machine

/-- One move of the agent named. A unit has a step exactly in `RUN` (R100, R131); a turn given to it otherwise passes. -/
def takeTurn : Turn → State → Answer
  | .dec, s => if s.dec.status = .run then decStep s else .next s
  | .und, s => if s.und.status = .run then undStep s else .next s
  | .host c, s => command c s

/-- With no more moves listed, a unit in `RUN` still takes its next step (R19, R162): the decoder first, which the hazard
rules make unobservable (R212; log entry 4). With no unit in `RUN` nothing happens (R202; log entry 5). -/
def freeRun (s : State) : Answer :=
  if s.dec.status = .run then decStep s
  else if s.und.status = .run then undStep s
  else .next s

/-- An address past every listed byte. -/
def Memory.pastEnd : Memory → Nat
  | [] => 0
  | (a, _) :: rest => max (a + 1) (Memory.pastEnd rest)

/-- An address past a buffer. -/
def Buffer.pastEnd : Option Buffer → Nat
  | none => 0
  | some w => w.base + w.size

/-- An address past everything the host has written or bound. -/
def State.pastEnd (s : State) : Nat :=
  max (Memory.pastEnd s.mem)
    (max (max (Buffer.pastEnd s.binding.inp) (Buffer.pastEnd s.binding.out))
      (max (Buffer.pastEnd s.binding.base) (Buffer.pastEnd s.binding.enc)))

/-- A stream loaded and its decode started: the bytes in fresh memory bound to `IN`, room for the longest record bound to
`OUT`, and the registers as `DEC.START` leaves them, with nothing else to happen first (R150, R203; log entry 16). -/
def State.loadStream (s : State) (bytes : List Byte) : State :=
  { s with
    mem := s.mem.writeBytes s.pastEnd bytes
    binding := { s.binding with
      inp := some { base := s.pastEnd, size := bytes.length }
      out := some { base := s.pastEnd + bytes.length, size := Config.maxCount } }
    ports := { s.ports with decLen := bytes.length, decCap := Config.maxCount }
    dec := { i := 0, o := 0, len := bytes.length, cap := Config.maxCount, status := .run, err := .none }
    decHeld := true
    turns := [] }

end Sys2Proof.Machine
end

