-- ==== Sys2Proof/Machine/Step.lean ====
section
/-! DEFINITION. One step of the machine: the next move in `State.turns`, or a running unit's own (spec 00_scope R7, R18). -/

namespace Sys2Proof.Machine

/-- One step. -/
def step (s : State) : Host.Outcome State Fault Refusal :=
  match s.turns with
  | [] => freeRun s
  | t :: rest => takeTurn t { s with turns := rest }

/-- The state whose very next step fetches and runs the record with those bits (log entry 16). -/
def State.withFetchWord (s : State) (nbits w : Nat) : State := s.loadStream (tableBytes nbits w)

end Sys2Proof.Machine
end

