-- ==== Sys2Proof/Machine/Invocation.lean ====
section
/-! DEFINITION. What one whole invocation of each unit computes, as the spec's own functions of the stream and of the
buffers (spec 40_rle_records R108, 41_delta_reversal R134): the machine's runs are held against these. -/

namespace Sys2Proof.Machine

/-- How a decode ends (R108). -/
inductive DecodeResult where
  | done (out : List Byte)
  | failed (e : ErrCode) (i : Nat) (out : List Byte)
deriving DecidableEq, Repr

/-- The output of a decode, however it ended (R108, R177). -/
def DecodeResult.output : DecodeResult → List Byte
  | .done out => out
  | .failed _ _ out => out

/-- `go(I, out)` of R108, `rest` being the stream from `I` on and `fuel` a bound on the number of records. -/
def decodeFrom (cap : Nat) : Nat → List Byte → Nat → List Byte → DecodeResult
  | _, [], _, out => .done out
  | 0, _ :: _, i, out => .failed .truncatedInput i out
  | fuel + 1, c :: rest, i, out =>
    if controlMode c then
      if rest.length < controlCount c then .failed .truncatedInput i out
      else if out.length + controlCount c > cap then .failed .outputOverflow i out
      else decodeFrom cap fuel (rest.drop (controlCount c)) (i + (1 + controlCount c)) (out ++ rest.take (controlCount c))
    else
      match rest with
      | [] => .failed .truncatedInput i out
      | v :: rest' =>
        if out.length + controlCount c > cap then .failed .outputOverflow i out
        else decodeFrom cap fuel rest' (i + 2) (out ++ List.replicate (controlCount c) v)

/-- `decode(s, CAP)` of R108; every record takes at least one byte, so the stream's length is fuel enough (R112). -/
def decodeStream (s : List Byte) (cap : Nat) : DecodeResult := decodeFrom cap s.length s 0 []

/-- `undiff(B, E)`: element by element, base minus encoded (R134, R135). -/
def undiff : List Byte → List Byte → List Byte
  | b :: bs, e :: es => undiffByte b e :: undiff bs es
  | _, _ => []

end Sys2Proof.Machine
end

