-- ==== Sys2Proof/Safety.lean ====
section
/-! DEFINITION. What counts as a safe state and a conforming launch, in the terms the claims use
(spec 10_state R27, R30, R31, R33; 20_memory R58, R63; 70 R204, R207 to R209). -/

namespace Sys2Proof.Machine

/-- The decoder's launch was true and disjoint (R204, R63). -/
structure State.DecLaunched (s : State) : Prop where
  inFits : s.dec.len ≤ Buffer.sizeOf s.binding.inp
  outFits : s.dec.cap ≤ Buffer.sizeOf s.binding.out
  apart : Buffer.overlap s.binding.inp s.binding.out = false

/-- The delta unit's launch was true and disjoint (R204, R63). -/
structure State.UndLaunched (s : State) : Prop where
  baseFits : s.und.n ≤ Buffer.sizeOf s.binding.base
  encFits : s.und.n ≤ Buffer.sizeOf s.binding.enc
  apart : Buffer.overlap s.binding.base s.binding.enc = false

/-- The decoder's registers cohere (R27, R30, R31, R177). -/
structure DecRegs.Coherent (d : DecRegs) : Prop where
  scanInStream : d.i ≤ d.len
  cursorInBuffer : d.o ≤ d.cap
  outputPerInput : d.o ≤ 127 * d.i
  noErrorUnlessErr : d.status ≠ .err → d.err = .none
  errorWhenErr : d.status = .err → d.err = .truncatedInput ∨ d.err = .outputOverflow
  doneAtEnd : d.status = .done → d.i = d.len
  failedInside : d.status = .err → d.i < d.len

/-- The delta unit's registers cohere (R27, R33, R173). -/
structure UndRegs.Coherent (u : UndRegs) : Prop where
  elementInBuffer : u.j ≤ u.n
  noErrorUnlessErr : u.status ≠ .err → u.err = .none
  mismatchWhenErr : u.status = .err → u.err = .lengthMismatch ∧ u.n = 0 ∧ u.j = 0
  doneAtEnd : u.status = .done → u.j = u.n

/-- The states a conforming host and the block can be in: memory canonical, registers coherent, and every running unit
launched truly, its buffers held, apart from each other and from the other running unit's. -/
structure State.Inv (s : State) : Prop where
  memWf : Memory.wf s.mem
  dec : s.dec.Coherent
  und : s.und.Coherent
  decLaunched : s.dec.status = .run → s.DecLaunched
  undLaunched : s.und.status = .run → s.UndLaunched
  decHeld : s.dec.status = .run → s.decHeld = true
  undHeld : s.und.status = .run → s.undHeld = true
  unitsApart : s.dec.status = .run → s.und.status = .run → s.unitsCollide = false

/-- `k` steps, stopping at the first fault or refusal: `Host.Core.run` of this machine. -/
def runFor : Nat → State → Answer
  | 0, s => .next s
  | k + 1, s =>
    match step s with
    | .next t => runFor k t
    | .fault f => .fault f
    | .refused r => .refused r

/-- The numbers a move of the host drives fit in `w` bits (R29, R32). -/
def Turn.fits (w : Nat) : Turn → Prop
  | .host (.drive _ v) => v < 2 ^ w
  | _ => True

/-- Every index, length and capacity of the machine, and every one the host is still to drive, fits in `w` bits: what the
open parameter `IW = w` asks (R8). -/
structure State.FitsWidth (w : Nat) (s : State) : Prop where
  decI : s.dec.i < 2 ^ w
  decO : s.dec.o < 2 ^ w
  decLen : s.dec.len < 2 ^ w
  decCap : s.dec.cap < 2 ^ w
  undJ : s.und.j < 2 ^ w
  undN : s.und.n < 2 ^ w
  decLenIn : s.ports.decLen < 2 ^ w
  decCapIn : s.ports.decCap < 2 ^ w
  undBlenIn : s.ports.undBlen < 2 ^ w
  undElenIn : s.ports.undElen < 2 ^ w
  toCome : ∀ t ∈ s.turns, t.fits w

/-- `sp[k ..)` holds exactly the bytes listed (R51). -/
def State.Holds (s : State) (sp : Space) : Nat → List Byte → Prop
  | _, [] => True
  | k, b :: bs => s.peek sp k = some b ∧ s.Holds sp (k + 1) bs

/-- Memory is the same byte for byte but for the bytes of `sp[lo .. hi)`. -/
def State.SameMemoryBut (s t : State) (sp : Space) (lo hi : Nat) : Prop :=
  ∀ a, (∀ k, lo ≤ k → k < hi → s.address sp k ≠ some a) → t.mem.read a = s.mem.read a

/-- Only the decoder's registers and memory may differ. -/
def State.OnlyDecAndMemory (s t : State) : Prop := t = { s with dec := t.dec, mem := t.mem }

/-- Only the delta unit's registers and memory may differ. -/
def State.OnlyUndAndMemory (s t : State) : Prop := t = { s with und := t.und, mem := t.mem }

/-- The decoder's registers in which R108 says an invocation that computes `r` ends. -/
def DecodeResult.finalRegs (r : DecodeResult) (d : DecRegs) : DecRegs :=
  match r with
  | .done out => { d with i := d.len, o := out.length, status := .done, err := .none }
  | .failed e i out => { d with i := i, o := out.length, status := .err, err := e }

end Sys2Proof.Machine
end

