-- ==== Sys2Proof/Certificates/Slice0/Obligations.lean ====
section
/-! DEFINITION. The statements for the provers. Each docstring names the rules of spec/ it rests on. -/

open Sys2Proof Sys2Proof.Machine

/-! ### Records and bytes (spec 30_encoding) -/

/-- R81: the control byte is `128 * mode + n`; extraction by bits, by division and by masks; the record it opens is of the
kind its mode names and produces `n` bytes. -/
def Obligations.ControlByteSplitsIntoModeAndCount : Prop :=
  ∀ c : Byte,
    c.toNat = 128 * (if controlMode c then 1 else 0) + controlCount c ∧ controlCount c ≤ 127 ∧
    (controlMode c = true ↔ c.toNat / 128 = 1) ∧ controlCount c = c.toNat % 128 ∧
    (controlMode c = true ↔ c &&& 0x80#8 ≠ 0#8) ∧ controlCount c = (c &&& 0x7F#8).toNat ∧
    ∀ (rest tail : List Byte) (i : Instr), decodeRecord (c :: rest) = .ok (i, tail) →
      (controlMode c = false ↔ ∃ v, i = .repeatRun (controlCount c) v) ∧
      (controlMode c = true ↔ ∃ bs, i = .literalRun (controlCount c) bs) ∧ i.expansion.length = controlCount c

/-- R86: the map of all 256 control bytes, in match-and-mask form, with each record's kind, count and length. -/
def Obligations.EveryControlByteOpensOneRecordKind : Prop :=
  ∀ (c : Byte) (body tail : List Byte), 1 + body.length = recordLength c →
    (c &&& 0x80#8 = 0x00#8 ∧ c.toNat ≤ 127 ∧ recordLength c = 2 ∧
      ∃ v, body = [v] ∧ decodeRecord (c :: (body ++ tail)) = .ok (.repeatRun c.toNat v, tail)) ∨
    (c &&& 0x80#8 = 0x80#8 ∧ 128 ≤ c.toNat ∧ recordLength c = 1 + (c.toNat - 128) ∧
      decodeRecord (c :: (body ++ tail)) = .ok (.literalRun (c.toNat - 128) body, tail))

/-- The spec's own words (X1, X2, T-C1, T-C5 to T-C7, T-L3), as bytes of a stream and as words of the opcode table. -/
def Obligations.WordsOfTheSpecDecode : Prop :=
  decodeRecord [0x05#8, 0x01#8] = .ok (.repeatRun 5 0x01#8, []) ∧
  decodeRecord [0x03#8, 0x00#8, 0x82#8, 0x01#8, 0x00#8] = .ok (.repeatRun 3 0x00#8, [0x82#8, 0x01#8, 0x00#8]) ∧
  decodeRecord [0x82#8, 0x01#8, 0x00#8] = .ok (.literalRun 2 [0x01#8, 0x00#8], []) ∧
  decodeRecord [0x00#8, 0x55#8] = .ok (.repeatRun 0 0x55#8, []) ∧
  decodeRecord [0x7F#8, 0xAA#8] = .ok (.repeatRun 127 0xAA#8, []) ∧
  decodeRecord [0x80#8] = .ok (.literalRun 0 [], []) ∧
  decodeRecord [0x83#8, 0x01#8, 0x02#8, 0x03#8] = .ok (.literalRun 3 [0x01#8, 0x02#8, 0x03#8], []) ∧
  decodeTableWord 16 0x0105 = some (.repeatRun 5 0x01#8) ∧
  decodeTableWord 24 0x000182 = some (.literalRun 2 [0x01#8, 0x00#8])

/-- R93: `bytes` then `parse` of one record is the identity, whatever follows it and whatever its operands are. -/
def Obligations.DecodeOfEncodeIsTheRecord : Prop :=
  ∀ (i : Instr) (tail : List Byte), i.wf = true → decodeRecord (encode i ++ tail) = .ok (i, tail)

/-- R93, the other way: what is decoded is well-formed and assembles to the bytes it was read from. -/
def Obligations.EncodeOfDecodeIsTheBytes : Prop :=
  ∀ (s tail : List Byte) (i : Instr), decodeRecord s = .ok (i, tail) → i.wf = true ∧ encode i ++ tail = s

/-- R87, R91: the only way bytes fail to open a record is that they are too few for it. -/
def Obligations.DecodeFailsOnlyForLength : Prop :=
  ∀ (s : List Byte) (e : DecodeError),
    decodeRecord s = .error e ↔
      (s = [] ∧ e = .noControlByte) ∨
      ∃ c rest, s = c :: rest ∧ 1 + rest.length < recordLength c ∧
        e = if controlMode c then .truncatedLiteral else .truncatedRepeat

/-- R93: well-formed streams and lists of well-formed records correspond one to one. -/
def Obligations.ParseAndAssembleAreInverse : Prop :=
  (∀ rs : List Instr, (∀ r ∈ rs, r.wf = true) → parse (assemble rs) = ⟨rs, none⟩) ∧
  (∀ s : List Byte, wellFormedStream s = true →
    assemble (parse s).records = s ∧ ∀ r ∈ (parse s).records, r.wf = true)

/-- R90, R91: a stream that is not well-formed is complete records and then one truncated record, at the index given. -/
def Obligations.ParseStopsAtTheTruncatedRecord : Prop :=
  ∀ (s : List Byte) (k : Nat), (parse s).truncatedAt = some k →
    k < s.length ∧ s.take k = assemble (parse s).records ∧ (∀ r ∈ (parse s).records, r.wf = true) ∧
    ∃ c rest, s.drop k = c :: rest ∧ 1 + rest.length < recordLength c

/-- R92: the bounds on the expanded length, and that the general one is reached at every stream length. -/
def Obligations.ExpandedLengthIsBounded : Prop :=
  (∀ s : List Byte, wellFormedStream s = true →
    (expandAll (parse s).records).length = expandedLength (parse s).records ∧
    expandedLength (parse s).records ≤ 127 * (s.length / 2) ∧
    ((∀ r ∈ (parse s).records, ∃ n bs, r = .literalRun n bs) → 1 ≤ s.length →
      expandedLength (parse s).records ≤ s.length - 1)) ∧
  (∀ len : Nat, ∃ s : List Byte, s.length = len ∧ wellFormedStream s = true ∧
    expandedLength (parse s).records = 127 * (len / 2))

/-! ### What the two records do (spec 40_rle_records) -/

/-- R103: `REPEAT n, v` at the level of `exec`: its two errors, and its result with its frame. -/
def Obligations.RepeatWritesItsValue : Prop :=
  ∀ (n : Nat) (v : Byte) (s : State), n ≤ 127 →
    (s.dec.i + 2 > s.dec.len →
      exec (.repeatRun n v) s = .next { s with dec := { s.dec with err := .truncatedInput, status := .err } }) ∧
    (s.dec.i + 2 ≤ s.dec.len → s.dec.o + n > s.dec.cap →
      exec (.repeatRun n v) s = .next { s with dec := { s.dec with err := .outputOverflow, status := .err } }) ∧
    (s.dec.i + 2 ≤ s.dec.len → s.dec.o + n ≤ s.dec.cap → s.dec.cap ≤ Buffer.sizeOf s.binding.out →
      ∃ t, exec (.repeatRun n v) s = .next t ∧ s.OnlyDecAndMemory t ∧
        t.dec = { s.dec with i := s.dec.i + 2, o := s.dec.o + n } ∧
        t.Holds .out s.dec.o (List.replicate n v) ∧ s.SameMemoryBut t .out s.dec.o (s.dec.o + n))

/-- R105: `LITERAL n, b1, ..., bn` at the level of `exec`: its two errors, and its result with its frame. -/
def Obligations.LiteralCopiesItsBytes : Prop :=
  ∀ (n : Nat) (bs : List Byte) (s : State), n ≤ 127 → bs.length = n →
    (s.dec.i + 1 + n > s.dec.len →
      exec (.literalRun n bs) s = .next { s with dec := { s.dec with err := .truncatedInput, status := .err } }) ∧
    (s.dec.i + 1 + n ≤ s.dec.len → s.dec.o + n > s.dec.cap →
      exec (.literalRun n bs) s = .next { s with dec := { s.dec with err := .outputOverflow, status := .err } }) ∧
    (s.dec.i + 1 + n ≤ s.dec.len → s.dec.o + n ≤ s.dec.cap → s.dec.cap ≤ Buffer.sizeOf s.binding.out →
      ∃ t, exec (.literalRun n bs) s = .next t ∧ s.OnlyDecAndMemory t ∧
        t.dec = { s.dec with i := s.dec.i + 1 + n, o := s.dec.o + n } ∧
        t.Holds .out s.dec.o bs ∧ s.SameMemoryBut t .out s.dec.o (s.dec.o + n))

/-- R104 (a), R106 (a), R109 (c): a record of count 0 writes nothing and consumes its bytes, whatever is bound to `OUT` and
however full it is. -/
def Obligations.ZeroCountRecordsOnlyAdvance : Prop :=
  ∀ (i : Instr) (s : State), i.wf = true → i.count = 0 → s.dec.i + i.length ≤ s.dec.len → s.dec.o ≤ s.dec.cap →
    exec i s = .next { s with dec := { s.dec with i := s.dec.i + i.length } }

/-- R54, R175, R206: the frame of both records. Either the record fails and only `ERR` and `STATUS` change, or it completes:
`I` moves by its length and `O` by its count, and of memory only the bytes `OUT[O .. O + n)` may change. -/
def Obligations.RecordFrame : Prop :=
  ∀ (i : Instr) (s t : State), i.wf = true → exec i s = .next t →
    (∃ e, t = { s with dec := { s.dec with err := e, status := .err } }) ∨
    (s.OnlyDecAndMemory t ∧ t.dec = { s.dec with i := s.dec.i + i.length, o := s.dec.o + i.count } ∧
      t.Holds .out s.dec.o i.expansion ∧ s.SameMemoryBut t .out s.dec.o (s.dec.o + i.count))

/-- R58, R184: with a true capacity no record stops the machine, whatever its operands are. -/
def Obligations.RecordsNeverStopAConformingMachine : Prop :=
  ∀ (i : Instr) (s : State), i.wf = true → s.dec.cap ≤ Buffer.sizeOf s.binding.out → ∃ t, exec i s = .next t

/-! ### The decoder's step (spec 40_rle_records R100 to R105, 60_exceptions) -/

/-- R100, R101: when the bytes at the scan index decode to a record, a decoder's step is `exec` of that record, on the state
with the move taken off the list of moves. With no move listed and the delta unit in `RUN` too, that the decoder is the one to
move is the model's choice (log entry 4). -/
def Obligations.StepRunsTheDecodedRecord : Prop :=
  ∀ (s : State) (rest : List Turn) (c : Byte) (body : List Byte) (i : Instr),
    (s.turns = .dec :: rest ∨ s.turns = [] ∧ rest = []) → s.dec.status = .run →
    s.Holds .inp s.dec.i (c :: body) → 1 + body.length = recordLength c → s.dec.i + recordLength c ≤ s.dec.len →
    decodeRecord (c :: body) = .ok (i, []) → step s = exec i { s with turns := rest }

/-- R103 whole, at the level of the step: control byte with bit 7 clear at `IN[I]`; `v` is `IN[I + 1]`. The checks are made
before the value byte is looked at. -/
def Obligations.DecoderStepOnARepeatRecord : Prop :=
  ∀ (s : State) (rest : List Turn) (c : Byte),
    (s.turns = .dec :: rest ∨ s.turns = [] ∧ rest = [] ∧ s.und.status ≠ .run) →
    s.dec.status = .run → s.dec.i < s.dec.len → s.peek .inp s.dec.i = some c → c.toNat < 128 →
    (s.dec.i + 2 > s.dec.len →
      step s = .next { s with turns := rest, dec := { s.dec with err := .truncatedInput, status := .err } }) ∧
    (s.dec.i + 2 ≤ s.dec.len → s.dec.o + c.toNat > s.dec.cap →
      step s = .next { s with turns := rest, dec := { s.dec with err := .outputOverflow, status := .err } }) ∧
    (s.dec.i + 2 ≤ s.dec.len → s.dec.o + c.toNat ≤ s.dec.cap → s.dec.cap ≤ Buffer.sizeOf s.binding.out →
      ∀ v, s.peek .inp (s.dec.i + 1) = some v →
        ∃ t, step s = .next t ∧ ({ s with turns := rest } : State).OnlyDecAndMemory t ∧
          t.dec = { s.dec with i := s.dec.i + 2, o := s.dec.o + c.toNat } ∧
          t.Holds .out s.dec.o (List.replicate c.toNat v) ∧ s.SameMemoryBut t .out s.dec.o (s.dec.o + c.toNat))

/-- R105 whole, at the level of the step: control byte with bit 7 set at `IN[I]`; the literal bytes are `IN[I + 1 ..)`. -/
def Obligations.DecoderStepOnALiteralRecord : Prop :=
  ∀ (s : State) (rest : List Turn) (n : Nat),
    (s.turns = .dec :: rest ∨ s.turns = [] ∧ rest = [] ∧ s.und.status ≠ .run) →
    s.dec.status = .run → s.dec.i < s.dec.len → n ≤ 127 → s.peek .inp s.dec.i = some (BitVec.ofNat 8 (128 + n)) →
    (s.dec.i + 1 + n > s.dec.len →
      step s = .next { s with turns := rest, dec := { s.dec with err := .truncatedInput, status := .err } }) ∧
    (s.dec.i + 1 + n ≤ s.dec.len → s.dec.o + n > s.dec.cap →
      step s = .next { s with turns := rest, dec := { s.dec with err := .outputOverflow, status := .err } }) ∧
    (s.dec.i + 1 + n ≤ s.dec.len → s.dec.o + n ≤ s.dec.cap → s.dec.cap ≤ Buffer.sizeOf s.binding.out →
      ∀ bs, bs.length = n → s.Holds .inp (s.dec.i + 1) bs →
        ∃ t, step s = .next t ∧ ({ s with turns := rest } : State).OnlyDecAndMemory t ∧
          t.dec = { s.dec with i := s.dec.i + 1 + n, o := s.dec.o + n } ∧
          t.Holds .out s.dec.o bs ∧ s.SameMemoryBut t .out s.dec.o (s.dec.o + n))

/-- R170 to R172, R174 to R177: a decoder's step that ends in `ERR` raised one of its two errors, for the cause given, and
changed nothing but `ERR` and `STATUS`; `TruncatedInput` comes first. -/
def Obligations.RaisedErrorsHaveTheirCause : Prop :=
  ∀ s t : State, s.dec.status = .run → s.dec.o ≤ s.dec.cap → decStep s = .next t → t.dec.status = .err →
    s.dec.i < s.dec.len ∧
    ∃ c, s.peek .inp s.dec.i = some c ∧
      ((s.dec.i + recordLength c > s.dec.len ∧
          t = { s with dec := { s.dec with err := .truncatedInput, status := .err } }) ∨
        (s.dec.i + recordLength c ≤ s.dec.len ∧ s.dec.o + controlCount c > s.dec.cap ∧ 1 ≤ controlCount c ∧
          t = { s with dec := { s.dec with err := .outputOverflow, status := .err } }))

/-- R102: at the end of the scan the step writes `STATUS <- DONE` and nothing else. -/
def Obligations.EndOfScanWritesDone : Prop :=
  ∀ (s : State) (rest : List Turn),
    (s.turns = .dec :: rest ∨ s.turns = [] ∧ rest = [] ∧ s.und.status ≠ .run) → s.dec.status = .run →
    s.dec.i = s.dec.len → step s = .next { s with turns := rest, dec := { s.dec with status := .done } }

/-- R100, R131, R193, R202: a unit outside `RUN` has no step: a move given to it passes, and with nothing to come and no unit
in `RUN` nothing changes (that the machine then answers the same state is the model's choice, log entry 5). -/
def Obligations.NothingMovesOutsideRun : Prop :=
  (∀ (s : State) (rest : List Turn), s.dec.status ≠ .run → s.turns = .dec :: rest →
    step s = .next { s with turns := rest }) ∧
  (∀ (s : State) (rest : List Turn), s.und.status ≠ .run → s.turns = .und :: rest →
    step s = .next { s with turns := rest }) ∧
  (∀ s : State, s.dec.status ≠ .run → s.und.status ≠ .run → s.turns = [] → step s = .next s)

/-! ### The delta unit (spec 41_delta_reversal) -/

/-- R131: the delta unit's step, with its frame: at `J = N` it writes `DONE`; otherwise `ENC[J]` becomes
`(BASE[J] - ENC[J]) mod 256` and `J` moves by 1. -/
def Obligations.UndiffReplacesOneElement : Prop :=
  ∀ (s : State) (rest : List Turn),
    (s.turns = .und :: rest ∨ s.turns = [] ∧ rest = [] ∧ s.dec.status ≠ .run) → s.und.status = .run →
    (s.und.j = s.und.n → step s = .next { s with turns := rest, und := { s.und with status := .done } }) ∧
    (∀ b e : Byte, s.und.j < s.und.n → s.peek .base s.und.j = some b → s.peek .enc s.und.j = some e →
      ∃ t, step s = .next t ∧ ({ s with turns := rest } : State).OnlyUndAndMemory t ∧
        t.und = { s.und with j := s.und.j + 1 } ∧
        t.peek .enc s.und.j = some (BitVec.ofNat 8 ((b.toNat + 256 - e.toNat) % 256)) ∧
        s.SameMemoryBut t .enc s.und.j (s.und.j + 1))

/-- R133: at `J = N` the step writes `STATUS <- DONE` and nothing else. -/
def Obligations.EndOfReversalWritesDone : Prop :=
  ∀ (s : State) (rest : List Turn),
    (s.turns = .und :: rest ∨ s.turns = [] ∧ rest = [] ∧ s.dec.status ≠ .run) → s.und.status = .run →
    s.und.j = s.und.n → step s = .next { s with turns := rest, und := { s.und with status := .done } }

/-- R132: the byte subtraction, unsigned, signed and as an adder. -/
def Obligations.ByteSubtractionWraps : Prop :=
  ∀ b e : Byte,
    (e.toNat ≤ b.toNat → (undiffByte b e).toNat = b.toNat - e.toNat) ∧
    (b.toNat < e.toNat → (undiffByte b e).toNat = b.toNat + 256 - e.toNat) ∧
    undiffByte b e = BitVec.ofInt 8 (b.toInt - e.toInt) ∧
    undiffByte b e = b + (e ^^^ 0xFF#8) + 1#8

/-- R135: running the reversal twice restores the buffer; it undoes a producer of `base - payload`, and of a producer of
`payload - base` it makes `2 * base - payload`. -/
def Obligations.ReversalIsSelfInverse : Prop :=
  (∀ B E : List Byte, B.length = E.length → (undiff B E).length = E.length ∧ undiff B (undiff B E) = E) ∧
  (∀ b p : Byte, undiffByte b (b - p) = p ∧ undiffByte b (p - b) = 2#8 * b - p)

/-! ### The host's commands (spec 42_host_commands, 70_reset_and_hazards) -/

/-- R150: `DEC.START` by a conforming host (true numbers, buffers apart), from `IDLE`, `DONE` or `ERR` alike. Colliding with
the delta unit's buffers matters only while that unit is in `RUN` (R209), not while its result is unread. The hand-over bit,
the whole buffers compared and an unbound port as an empty buffer are the model's (log entries 6, 7, 9, 25). -/
def Obligations.DecStartBeginsADecode : Prop :=
  ∀ (s : State) (rest : List Turn), s.turns = .host .decStart :: rest →
    (s.dec.status = .run → step s = .next { s with turns := rest }) ∧
    (s.dec.status ≠ .run → s.ports.decLen ≤ Buffer.sizeOf s.binding.inp → s.ports.decCap ≤ Buffer.sizeOf s.binding.out →
      Buffer.overlap s.binding.inp s.binding.out = false → (s.und.status = .run → s.unitsCollide = false) →
      step s = .next { s with
        turns := rest
        decHeld := true
        dec := { len := s.ports.decLen, cap := s.ports.decCap, i := 0, o := 0, err := .none, status := .run } })

/-- R151, R156: a start command during `RUN` changes nothing but the list of moves, and is not remembered. -/
def Obligations.StartDuringRunIsLost : Prop :=
  (∀ (s : State) (rest : List Turn), s.turns = .host .decStart :: rest → s.dec.status = .run →
    step s = .next { s with turns := rest }) ∧
  (∀ (s : State) (rest : List Turn), s.turns = .host .undStart :: rest → s.und.status = .run →
    step s = .next { s with turns := rest })

/-- R155, R173: `UND.START`: ignored in `RUN`, `LengthMismatch` for unequal lengths, else the start of a reversal (by a
conforming host; what counts as one, and the hand-over bit, are the model's reading, log entries 6 to 9 and 25). No byte of
any buffer is touched. -/
def Obligations.UndStartComparesTheLengths : Prop :=
  ∀ (s : State) (rest : List Turn), s.turns = .host .undStart :: rest →
    (s.und.status = .run → step s = .next { s with turns := rest }) ∧
    (s.und.status ≠ .run → s.ports.undBlen ≠ s.ports.undElen →
      step s = .next { s with
        turns := rest
        undHeld := true
        und := { n := 0, j := 0, err := .lengthMismatch, status := .err } }) ∧
    (s.und.status ≠ .run → s.ports.undBlen = s.ports.undElen → s.ports.undBlen ≤ Buffer.sizeOf s.binding.base →
      s.ports.undElen ≤ Buffer.sizeOf s.binding.enc → Buffer.overlap s.binding.base s.binding.enc = false →
      (s.dec.status = .run → s.unitsCollide = false) →
      step s = .next { s with
        turns := rest
        undHeld := true
        und := { n := s.ports.undBlen, j := 0, err := .none, status := .run } })

/-- R63, R204, R208, R209, U10: which launches are refused by name, and that no other launch is. The model's reading in this:
whole buffers are compared (log entry 6); a length shorter than the real buffer is allowed, though R204 says `real lengths` of
`BASE` and `ENC` (log entry 8); an unbound port is an empty buffer (log entry 9); a start with the other unit `DONE` or `ERR`
but unread is one that R209 lets pass (log entry 25). -/
def Obligations.LaunchesOutsideTheSpecAreRefused : Prop :=
  ∀ (s : State) (rest : List Turn),
    (s.turns = .host .decStart :: rest → s.dec.status ≠ .run →
      ((∃ r, step s = .refused r) ↔
        (Buffer.sizeOf s.binding.inp < s.ports.decLen ∨ Buffer.sizeOf s.binding.out < s.ports.decCap ∨
          Buffer.overlap s.binding.inp s.binding.out = true ∨ s.und.status = .run ∧ s.unitsCollide = true))) ∧
    (s.turns = .host .undStart :: rest → s.und.status ≠ .run → s.ports.undBlen = s.ports.undElen →
      ((∃ r, step s = .refused r) ↔
        (Buffer.sizeOf s.binding.base < s.ports.undBlen ∨ Buffer.sizeOf s.binding.enc < s.ports.undElen ∨
          Buffer.overlap s.binding.base s.binding.enc = true ∨ s.dec.status = .run ∧ s.unitsCollide = true)))

/-- R207, U10: while a unit holds its buffers the host has no move on them: every index of a held buffer is refused to the
host's reads and writes, and so is binding the unit's ports. The name of the refusal is log entry 6, and
when the hand-over ends is the model's choice (log entry 7). -/
def Obligations.HeldBuffersAreRefusedToTheHost : Prop :=
  ∀ (s : State) (rest : List Turn) (sp : Space) (k a : Nat) (b : Byte) (w : Option Buffer),
    s.spaceHeld sp = true → s.address sp k = some a →
    (s.turns = .host (.write a b) :: rest → step s = .refused .bufferInUse) ∧
    (s.turns = .host (.read a) :: rest → step s = .refused .bufferInUse) ∧
    (s.turns = .host (.bind sp w) :: rest → step s = .refused .bufferInUse)

/-- R60, R66, R158: where no unit holds the address, the host's write goes through, changes that byte alone, and the host's
next read of it gives the byte written. -/
def Obligations.HostReadsBackWhatItWrote : Prop :=
  ∀ (s : State) (rest : List Turn) (a : Nat) (b : Byte), s.addressHeld a = false →
    s.turns = .host (.write a b) :: .host (.read a) :: rest →
    ∃ t u, step s = .next t ∧ step t = .next u ∧ t.mem.read a = some b ∧
      (∀ a', a' ≠ a → t.mem.read a' = s.mem.read a') ∧ t = { s with turns := .host (.read a) :: rest, mem := t.mem } ∧
      u = { t with turns := rest, seen := b.toNat :: s.seen }

/-- R35, R66, R152, R157: reading a port changes no register, no binding and no byte; a defined port shows its register, and
reading a status that is not `RUN` hands that unit's buffers back. Of an undefined port nothing is said of the value
(log entry 10). When the hand-over ends is log entry 7. -/
def Obligations.PortReadsHaveNoSideEffect : Prop :=
  ∀ (s : State) (rest : List Turn) (p : OutPort), s.turns = .host (.readPort p) :: rest →
    ∃ t v, step s = .next t ∧ t.seen = v :: s.seen ∧ t.turns = rest ∧ t.dec = s.dec ∧ t.und = s.und ∧
      t.binding = s.binding ∧ t.ports = s.ports ∧ t.mem = s.mem ∧
      (p = .decStatus → v = s.dec.status.code.toNat) ∧ (p = .undStatus → v = s.und.status.code.toNat) ∧
      (s.dec.status ≠ .run →
        (p = .decErr → v = s.dec.err.code.toNat) ∧ (p = .decCount → v = s.dec.o) ∧ (p = .decI → v = s.dec.i)) ∧
      (s.und.status ≠ .run → (p = .undErr → v = s.und.err.code.toNat) ∧ (p = .undJ → v = s.und.j)) ∧
      t.decHeld = (s.decHeld && !(decide (p = .decStatus) && decide (s.dec.status ≠ .run))) ∧
      t.undHeld = (s.undHeld && !(decide (p = .undStatus) && decide (s.und.status ≠ .run)))

/-- R211: driving an input port changes that port and nothing else; a later start samples it. -/
def Obligations.DrivingAPortChangesOnlyThePort : Prop :=
  ∀ (s : State) (rest : List Turn) (p : InPort) (v : Nat), s.turns = .host (.drive p v) :: rest →
    ∃ q, step s = .next { s with turns := rest, ports := q } ∧
      q.decLen = (if p = .decLen then v else s.ports.decLen) ∧ q.decCap = (if p = .decCap then v else s.ports.decCap) ∧
      q.undBlen = (if p = .undBlen then v else s.ports.undBlen) ∧ q.undElen = (if p = .undElen then v else s.ports.undElen)

/-- R39: the values the spec gives for reset. -/
def Obligations.ResetLeavesTheStatedValues : Prop :=
  State.reset.dec = { i := 0, o := 0, len := 0, cap := 0, status := .idle, err := .none } ∧
  State.reset.und = { j := 0, n := 0, status := .idle, err := .none } ∧
  State.reset.binding = { inp := none, out := none, base := none, enc := none }

/-- R200, R201: the reset move, at any time and whatever start commands coincide with it: all registers and bindings at their
reset values; of memory only the declared range of a buffer that a running unit was writing may change, and it then holds
some byte everywhere, as far as the buffer reaches (log entry 11). The input ports stay as driven (log entry 12). -/
def Obligations.ResetOverridesEverything : Prop :=
  ∀ (s : State) (rest : List Turn) (coinciding : List UnitName), s.turns = .host (.reset coinciding) :: rest →
    ∃ t, step s = .next t ∧ t.turns = rest ∧ t.dec = State.reset.dec ∧ t.und = State.reset.und ∧
      t.binding = State.reset.binding ∧ t.ports = s.ports ∧ t.seen = s.seen ∧
      (∀ a, (s.dec.status = .run → ∀ k < s.dec.cap, s.address .out k ≠ some a) →
        (s.und.status = .run → ∀ k < s.und.n, s.address .enc k ≠ some a) → t.mem.read a = s.mem.read a) ∧
      (s.dec.status = .run → ∀ k < s.dec.cap, ∀ a, s.address .out k = some a → ∃ v, t.mem.read a = some v) ∧
      (s.und.status = .run → ∀ k < s.und.n, ∀ a, s.address .enc k = some a → ∃ v, t.mem.read a = some v)

/-! ### Whole-machine rules -/

/-- The invariant holds at reset: R39 for the registers, log entries 3 and 12 for the model's own fields. -/
def Obligations.ResetSatisfiesTheInvariant : Prop := State.reset.Inv

/-- R27, R30, R31, R33, R58, R63, R204: the invariant is kept by every step of every agent, from every state that has it. -/
def Obligations.EveryStepKeepsTheInvariant : Prop := ∀ s t : State, s.Inv → step s = .next t → t.Inv

/-- R8, R11, R25 (no wrap): if every index, length and capacity fits in `w` bits, and so does every number the host is to
drive, then after any step they all still fit: natural-number indices (log entry 1) agree with registers of any width. -/
def Obligations.IndicesNeverOutgrowTheirWidth : Prop :=
  ∀ (w : Nat) (s t : State), s.FitsWidth w → step s = .next t → t.FitsWidth w

/-- R180, R206: outside `RUN` a unit's registers change only by its own start command or a reset. -/
def Obligations.ResultsAreSticky : Prop :=
  ∀ s t : State, step s = .next t →
    (s.dec.status ≠ .run → (∀ rest, s.turns ≠ .host .decStart :: rest) →
      (∀ l rest, s.turns ≠ .host (.reset l) :: rest) → t.dec = s.dec) ∧
    (s.und.status ≠ .run → (∀ rest, s.turns ≠ .host .undStart :: rest) →
      (∀ l rest, s.turns ≠ .host (.reset l) :: rest) → t.und = s.und)

/-- R53, R55, R63, R69: the decoder's step never changes `IN`, nor any buffer of a running delta unit; the delta unit's step
never changes `BASE`, nor any buffer of a running decoder. -/
def Obligations.UnitsNeverWriteWhatTheyOnlyRead : Prop :=
  (∀ s t : State, s.Inv → s.dec.status = .run → decStep s = .next t →
    (∀ k, t.peek .inp k = s.peek .inp k) ∧
    (s.und.status = .run → ∀ k, t.peek .base k = s.peek .base k ∧ t.peek .enc k = s.peek .enc k)) ∧
  (∀ s t : State, s.Inv → s.und.status = .run → undStep s = .next t →
    (∀ k, t.peek .base k = s.peek .base k) ∧
    (s.dec.status = .run → ∀ k, t.peek .inp k = s.peek .inp k ∧ t.peek .out k = s.peek .out k))

/-- R26, R54, R71, R110 (a): the cursor only grows, never past `CAP`; a step changes no byte of `OUT` below the old cursor
or from the new cursor on. -/
def Obligations.OutputIsAppendOnly : Prop :=
  ∀ s t : State, s.dec.o ≤ s.dec.cap → decStep s = .next t →
    s.dec.o ≤ t.dec.o ∧ t.dec.o ≤ s.dec.cap ∧ t.dec.len = s.dec.len ∧ t.dec.cap = s.dec.cap ∧
    ∀ k, k < s.dec.o ∨ t.dec.o ≤ k → t.peek .out k = s.peek .out k

/-- R25, R112, R113: a decoder's step either ends the run and leaves the scan index, or moves it forward within the stream. -/
def Obligations.ScanOnlyMovesForward : Prop :=
  ∀ s t : State, s.dec.status = .run → decStep s = .next t →
    (t.dec.status ≠ .run ∧ t.dec.i = s.dec.i ∧ t.dec.o = s.dec.o) ∨
    (t.dec.status = .run ∧ s.dec.i < t.dec.i ∧ t.dec.i ≤ s.dec.i + 128 ∧ t.dec.i ≤ s.dec.len ∧
      t.dec.o ≤ s.dec.o + 127)

/-- R58, R100, R131: a running unit that was launched truly, with its input written, always has a step, and it answers a next
state. -/
def Obligations.RunningUnitsAlwaysStep : Prop :=
  (∀ s : State, s.Inv → s.dec.status = .run → (∀ k < s.dec.len, ∃ b, s.peek .inp k = some b) →
    ∃ t, decStep s = .next t) ∧
  (∀ s : State, s.Inv → s.und.status = .run →
    (∀ k < s.und.n, (∃ b, s.peek .base k = some b) ∧ ∃ e, s.peek .enc k = some e) → ∃ t, undStep s = .next t)

/-- R212: the two units' steps commute, whichever comes first. -/
def Obligations.UnitStepsCommute : Prop :=
  ∀ s b : State, s.Inv → s.dec.status = .run → s.und.status = .run →
    ((∃ a, decStep s = .next a ∧ undStep a = .next b) ↔ (∃ c, undStep s = .next c ∧ decStep c = .next b))

/-! ### Whole invocations -/

/-- R108, R112: from the state a start command leaves, the decoder ends, after at most `LEN + 1` steps and not before its last
one, in the registers and the output that `decode` of the stream and the capacity gives; nothing else changes. That the
decoder alone moves, to its end, also while the delta unit is in `RUN`, is the model's choice for an empty list of moves (log
entry 4). -/
def Obligations.DecoderComputesDecode : Prop :=
  ∀ (s : State) (bytes : List Byte) (cap : Nat), s.turns = [] →
    s.dec = { i := 0, o := 0, len := bytes.length, cap := cap, status := .run, err := .none } →
    s.DecLaunched → s.Holds .inp 0 bytes →
    ∃ (k : Nat) (t : State), 1 ≤ k ∧ k ≤ bytes.length + 1 ∧ runFor k s = .next t ∧
      (∀ j < k, ∃ u : State, runFor j s = .next u ∧ u.dec.status = .run) ∧
      s.OnlyDecAndMemory t ∧ t.dec = (decodeStream bytes cap).finalRegs s.dec ∧
      t.Holds .out 0 (decodeStream bytes cap).output ∧
      s.SameMemoryBut t .out 0 (decodeStream bytes cap).output.length

/-- R134, R137: from the state a start command leaves, the delta unit takes exactly `N + 1` steps and ends with `ENC` holding
base minus encoded, element by element; nothing else changes. -/
def Obligations.DeltaUnitComputesUndiff : Prop :=
  ∀ (s : State) (B E : List Byte), s.turns = [] → s.dec.status ≠ .run → B.length = E.length →
    s.und = { j := 0, n := E.length, status := .run, err := .none } → s.UndLaunched →
    s.Holds .base 0 B → s.Holds .enc 0 E →
    ∃ t : State, runFor (E.length + 1) s = .next t ∧
      (∀ j ≤ E.length, ∃ u : State, runFor j s = .next u ∧ u.und.status = .run) ∧
      s.OnlyUndAndMemory t ∧ t.und = { j := E.length, n := E.length, status := .done, err := .none } ∧
      t.Holds .enc 0 (undiff B E) ∧ s.SameMemoryBut t .enc 0 E.length

/-- R178, R109 (a), (b): which outcome a decode has, as a function of the parse and the capacity. -/
def Obligations.DecodeOutcomeFollowsFromTheParse : Prop :=
  ∀ (s : List Byte) (cap : Nat),
    (expandedLength (parse s).records ≤ cap →
      decodeStream s cap =
        match (parse s).truncatedAt with
        | none => .done (expandAll (parse s).records)
        | some k => .failed .truncatedInput k (expandAll (parse s).records)) ∧
    (cap < expandedLength (parse s).records →
      ∃ before r after, (parse s).records = before ++ r :: after ∧ expandedLength before ≤ cap ∧
        cap < expandedLength before + r.count ∧
        decodeStream s cap = .failed .outputOverflow (assemble before).length (expandAll before))

/-- R110 (c): a larger capacity changes neither a completed decode nor a `TruncatedInput`. -/
def Obligations.MoreCapacityChangesNoOtherOutcome : Prop :=
  ∀ (s : List Byte) (cap cap' : Nat), cap ≤ cap' →
    (∀ out, decodeStream s cap = .done out → decodeStream s cap' = .done out) ∧
    (∀ i out, decodeStream s cap = .failed .truncatedInput i out → decodeStream s cap' = .failed .truncatedInput i out)

/-- R110 (b): decoding a concatenation is decoding its second part with what room the first leaves. -/
def Obligations.DecodeOfAConcatenation : Prop :=
  ∀ (s1 s2 : List Byte) (cap : Nat), wellFormedStream s1 = true → expandedLength (parse s1).records ≤ cap →
    decodeStream (s1 ++ s2) cap =
      match decodeStream s2 (cap - expandedLength (parse s1).records) with
      | .done out => .done (expandAll (parse s1).records ++ out)
      | .failed e i out => .failed e (s1.length + i) (expandAll (parse s1).records ++ out)

/-- R110 (d): a no-operation record at a record boundary changes no output. -/
def Obligations.NoOperationRecordsChangeNoOutput : Prop :=
  ∀ (s1 s2 : List Byte) (v : Byte) (cap : Nat), wellFormedStream s1 = true →
    (decodeStream (s1 ++ 0x80#8 :: s2) cap).output = (decodeStream (s1 ++ s2) cap).output ∧
    (decodeStream (s1 ++ 0x00#8 :: v :: s2) cap).output = (decodeStream (s1 ++ s2) cap).output

/-- R109 (e): an output buffer of exactly the expanded length decodes; one byte less raises `OutputOverflow` in the last
record that has any output, with the output of the records before it kept. -/
def Obligations.OneByteShortOverflowsAtTheLastOutput : Prop :=
  ∀ s : List Byte, wellFormedStream s = true →
    decodeStream s (expandedLength (parse s).records) = .done (expandAll (parse s).records) ∧
    (1 ≤ expandedLength (parse s).records →
      ∃ before r after, (parse s).records = before ++ r :: after ∧ 0 < r.count ∧ expandedLength after = 0 ∧
        decodeStream s (expandedLength (parse s).records - 1) =
          .failed .outputOverflow (assemble before).length (expandAll before))

/-- R160, steps 3 to 6: after a decode has ended `DONE`, reading the status, binding the work buffer as `ENC` and the base as
`BASE`, driving the base's length and `dec_count`, and `UND.START`, begin a reversal of exactly the decoded bytes, or give
`LengthMismatch` when the base's length differs; memory and the decoder's registers are as they were. -/
def Obligations.ChainedUseStartsTheReversal : Prop :=
  ∀ (s : State) (rest : List Turn) (K W : Buffer), s.dec.status = .done → s.und.status ≠ .run → s.undHeld = false →
    s.binding.out = some W → s.dec.o ≤ W.size → Buffer.overlap (some K) (some W) = false →
    s.turns = .host (.readPort .decStatus) :: .host (.bind .base (some K)) :: .host (.bind .enc (some W)) ::
      .host (.drive .undBlen K.size) :: .host (.drive .undElen s.dec.o) :: .host .undStart :: rest →
    ∃ t : State, runFor 6 s = .next t ∧ t.turns = rest ∧ t.dec = s.dec ∧ t.mem = s.mem ∧ t.seen = 2 :: s.seen ∧
      (K.size = s.dec.o → t.und = { j := 0, n := s.dec.o, status := .run, err := .none } ∧ t.UndLaunched ∧
        ∀ k, t.peek .enc k = s.peek .out k) ∧
      (K.size ≠ s.dec.o → t.und = { j := 0, n := 0, status := .err, err := .lengthMismatch })

/-- The host's question about the opcode table: every word decodes to a well-formed record, and the very next step after
placing it runs that record to its end (log entry 16). With the delta unit in `RUN` when the word is placed, that the decoder
moves first is log entry 4. -/
def Obligations.PlacedWordsRunAtOnce : Prop :=
  ∀ (s : State) (nbits w : Nat), ∃ i t, decodeTableWord nbits w = some i ∧ i.wf = true ∧
    step (s.withFetchWord nbits w) = exec i (s.withFetchWord nbits w) ∧
    exec i (s.withFetchWord nbits w) = .next t ∧ t.dec.i = i.length ∧ t.dec.o = i.count ∧ t.dec.status = .run ∧
    t.Holds .out 0 i.expansion

/-- The model's choice (log entry 4): with no move listed, a step is the running decoder's move, and the running delta unit's
when the decoder is not in `RUN`. The spec leaves the order open (R18, R212). -/
def Obligations.NoMovesListedIsTheDecodersTurnFirst : Prop :=
  ∀ s : State, s.turns = [] →
    (s.dec.status = .run → step s = step { s with turns := [.dec] }) ∧
    (s.dec.status ≠ .run → s.und.status = .run → step s = step { s with turns := [.und] })
end

