-- ==== Sys2Proof/Laws/Decode.lean ====
section
/-! SUPPORT. The control byte's fields as arithmetic, and what the decoder answers (spec 30_encoding R81, R86, R89). -/

namespace Sys2Proof

theorem controlCount_eq (c : Byte) : controlCount c = c.toNat % 128 := by
  simp [controlCount, BitVec.extractLsb]

theorem controlCount_le (c : Byte) : controlCount c ≤ 127 := by
  rw [controlCount_eq]; omega

theorem controlMode_eq (c : Byte) : controlMode c = decide (128 ≤ c.toNat) := by
  have hc := c.isLt
  unfold controlMode BitVec.getLsbD
  rw [Nat.testBit_eq_decide_div_mod_eq]
  congr 1
  apply propext
  omega

theorem toNat_eq_fields (c : Byte) : c.toNat = 128 * (if controlMode c then 1 else 0) + controlCount c := by
  have hc := c.isLt
  rw [controlMode_eq, controlCount_eq]
  by_cases h : 128 ≤ c.toNat <;> simp [h] <;> omega

@[simp] theorem controlMode_repeat {n : Nat} (h : n ≤ 127) : controlMode (BitVec.ofNat 8 n) = false := by
  rw [controlMode_eq, BitVec.toNat_ofNat, Nat.mod_eq_of_lt (by omega)]
  simp; omega

@[simp] theorem controlCount_repeat {n : Nat} (h : n ≤ 127) : controlCount (BitVec.ofNat 8 n) = n := by
  rw [controlCount_eq, BitVec.toNat_ofNat]; omega

@[simp] theorem controlMode_literal {n : Nat} (h : n ≤ 127) : controlMode (BitVec.ofNat 8 (128 + n)) = true := by
  rw [controlMode_eq, BitVec.toNat_ofNat, Nat.mod_eq_of_lt (by omega)]
  simp

@[simp] theorem controlCount_literal {n : Nat} (h : n ≤ 127) : controlCount (BitVec.ofNat 8 (128 + n)) = n := by
  rw [controlCount_eq, BitVec.toNat_ofNat]; omega

theorem recordLength_pos (c : Byte) : 1 ≤ recordLength c := by
  unfold recordLength; split <;> omega

theorem recordLength_le (c : Byte) : recordLength c ≤ 128 := by
  have := controlCount_le c
  unfold recordLength; split <;> omega

/-- A record yields at most 127 bytes for each stream byte (R27 (f)). -/
theorem controlCount_le_length (c : Byte) : controlCount c ≤ 127 * recordLength c := by
  have := controlCount_le c
  have := recordLength_pos c
  omega

theorem Instr.wf_repeatRun {n : Nat} {v : Byte} : (Instr.repeatRun n v).wf = true ↔ n ≤ 127 := by
  simp only [Instr.wf, decide_eq_true_eq]
  rfl

theorem Instr.wf_literalRun {n : Nat} {bs : List Byte} :
    (Instr.literalRun n bs).wf = true ↔ n ≤ 127 ∧ bs.length = n := by
  simp only [Instr.wf, Bool.and_eq_true, decide_eq_true_eq]
  rfl

/-- Everything the decoder can answer when it answers a record: a whole record of the control byte's kind and count, its
bytes the front of the sequence (R82 to R86). -/
theorem decodeRecord_cases {c : Byte} {rest : List Byte} {i : Instr} {tail : List Byte}
    (h : decodeRecord (c :: rest) = .ok (i, tail)) :
    (controlMode c = false ∧ ∃ v, rest = v :: tail ∧ i = .repeatRun (controlCount c) v) ∨
      (controlMode c = true ∧ ∃ bs, bs.length = controlCount c ∧ rest = bs ++ tail ∧
        i = .literalRun (controlCount c) bs) := by
  simp only [decodeRecord] at h
  split at h
  · rename_i hm
    split at h
    · simp at h
    · rename_i hl
      simp only [Except.ok.injEq, Prod.mk.injEq] at h
      refine .inr ⟨hm, rest.take (controlCount c), by simp; omega, ?_, h.1.symm⟩
      rw [← h.2, List.take_append_drop]
  · rename_i hm
    cases rest with
    | nil => simp at h
    | cons v rest' =>
      simp only [Except.ok.injEq, Prod.mk.injEq] at h
      exact .inl ⟨by simpa using hm, v, by rw [h.2], h.1.symm⟩

/-- A control byte and a body of the right length decode to one whole record (R87, R89). -/
theorem decodeRecord_whole (c : Byte) (body tail : List Byte) (h : 1 + body.length = recordLength c) :
    ∃ i, decodeRecord (c :: (body ++ tail)) = .ok (i, tail) ∧ i.wf = true ∧ i.length = recordLength c ∧
      i.count = controlCount c ∧ i.expansion.length = controlCount c := by
  have hle := controlCount_le c
  unfold recordLength at h ⊢
  split at h
  · rename_i hm
    refine ⟨.literalRun (controlCount c) body, ?_, Instr.wf_literalRun.2 ⟨hle, by omega⟩, by simp [Instr.length, hm], rfl,
      by simp only [Instr.expansion]; omega⟩
    have hb : body.length = controlCount c := by omega
    simp only [decodeRecord, hm, if_true, List.length_append]
    rw [if_neg (by omega), ← hb]
    simp
  · rename_i hm
    obtain ⟨v, rfl⟩ : ∃ v, body = [v] := List.length_eq_one_iff.1 (by omega)
    refine ⟨.repeatRun (controlCount c) v, ?_, Instr.wf_repeatRun.2 hle, by simp [Instr.length, hm], rfl,
      by simp [Instr.expansion]⟩
    simp [decodeRecord, hm]

/-- What is decoded is well-formed and has the length and count its control byte says (R89). -/
theorem decodeRecord_wf {c : Byte} {rest : List Byte} {i : Instr} {tail : List Byte}
    (h : decodeRecord (c :: rest) = .ok (i, tail)) :
    i.wf = true ∧ i.length = recordLength c ∧ i.count = controlCount c ∧ i.expansion.length = controlCount c ∧
      rest.length = recordLength c - 1 + tail.length := by
  have hle := controlCount_le c
  rcases decodeRecord_cases h with ⟨hm, v, rfl, rfl⟩ | ⟨hm, bs, hb, rfl, rfl⟩
  · exact ⟨Instr.wf_repeatRun.2 hle, by simp [Instr.length, recordLength, hm], rfl, by simp [Instr.expansion],
      by simp [recordLength, hm]; omega⟩
  · exact ⟨Instr.wf_literalRun.2 ⟨hle, hb⟩, by simp [Instr.length, recordLength, hm], rfl, hb,
      by simp [recordLength, hm]; omega⟩

/-- Bytes too short for the record their control byte opens decode to nothing (R91). -/
theorem decodeRecord_short (c : Byte) (rest : List Byte) (h : 1 + rest.length < recordLength c) :
    decodeRecord (c :: rest) = .error (if controlMode c then .truncatedLiteral else .truncatedRepeat) := by
  unfold recordLength at h
  split at h
  · rename_i hm
    simp only [decodeRecord, hm, if_true]
    rw [if_pos (by omega)]
  · rename_i hm
    obtain rfl : rest = [] := List.length_eq_zero_iff.1 (by omega)
    simp [decodeRecord, hm]

end Sys2Proof
end

