-- ==== Sys2Proof/Laws/Memory.lean ====
section
/-! SUPPORT. Memory: a read after a write, the canonical form, and that canonical memories with equal reads are equal. -/

namespace Sys2Proof.Machine

@[simp] theorem Memory.read_nil (a : Nat) : Memory.read [] a = none := rfl

theorem Memory.read_cons (x : Nat) (v : Byte) (rest : Memory) (a : Nat) :
    Memory.read ((x, v) :: rest) a = if a = x then some v else Memory.read rest a := rfl

theorem Memory.read_write (m : Memory) (a : Nat) (b : Byte) (a' : Nat) :
    (Memory.write m a b).read a' = if a' = a then some b else Memory.read m a' := by
  induction m with
  | nil => rfl
  | cons c rest ih =>
    obtain ⟨x, v⟩ := c
    simp only [Memory.write]
    split
    · rfl
    · split
      · subst_vars
        simp only [Memory.read_cons]
        split <;> rfl
      · rename_i hx
        simp only [Memory.read_cons, ih]
        split
        · subst_vars
          rw [if_neg (fun h => hx h.symm)]
        · rfl

@[simp] theorem Memory.read_write_same (m : Memory) (a : Nat) (b : Byte) : (Memory.write m a b).read a = some b := by
  simp [Memory.read_write]

theorem Memory.read_write_other (m : Memory) {a a' : Nat} (b : Byte) (h : a' ≠ a) :
    (Memory.write m a b).read a' = Memory.read m a' := by
  simp [Memory.read_write, h]

theorem Memory.mem_write {m : Memory} {a : Nat} {b : Byte} {c : Host.Cell} (h : c ∈ Memory.write m a b) :
    c = (a, b) ∨ c ∈ m := by
  induction m with
  | nil => exact .inl (by simpa [Memory.write] using h)
  | cons d rest ih =>
    obtain ⟨x, v⟩ := d
    simp only [Memory.write] at h
    split at h
    · simpa using h
    · split at h
      · simp only [List.mem_cons] at h ⊢; tauto
      · simp only [List.mem_cons] at h ⊢
        rcases h with h | h
        · exact .inr (.inl h)
        · rcases ih h with h | h
          · exact .inl h
          · exact .inr (.inr h)

theorem Memory.wf_write {m : Memory} (h : Memory.wf m) (a : Nat) (b : Byte) : Memory.wf (Memory.write m a b) := by
  induction m with
  | nil => simp [Memory.write, Memory.wf]
  | cons c rest ih =>
    obtain ⟨x, v⟩ := c
    simp only [Memory.wf, List.pairwise_cons] at h
    simp only [Memory.write]
    split
    · rename_i hax
      simp only [Memory.wf, List.pairwise_cons, List.mem_cons]
      refine ⟨?_, h⟩
      rintro c (rfl | hc)
      · exact hax
      · exact lt_trans hax (h.1 c hc)
    · split
      · subst_vars
        simpa only [Memory.wf, List.pairwise_cons] using h
      · simp only [Memory.wf, List.pairwise_cons]
        refine ⟨fun c hc => ?_, ih h.2⟩
        rcases Memory.mem_write hc with rfl | hc
        · show x < a
          omega
        · exact h.1 c hc

theorem Memory.read_none_of_below {m : Memory} {a : Nat} (h : ∀ c ∈ m, a < c.1) : Memory.read m a = none := by
  induction m with
  | nil => rfl
  | cons c rest ih =>
    obtain ⟨x, v⟩ := c
    have hx : a < x := h (x, v) (by simp)
    rw [Memory.read_cons, if_neg (by omega)]
    exact ih fun c hc => h c (by simp [hc])

/-- Canonical memories with equal reads are equal. -/
theorem Memory.ext_of_wf {m m' : Memory} (h : Memory.wf m) (h' : Memory.wf m')
    (hr : ∀ a, Memory.read m a = Memory.read m' a) : m = m' := by
  induction m generalizing m' with
  | nil =>
    cases m' with
    | nil => rfl
    | cons c rest =>
      obtain ⟨x, v⟩ := c
      simpa [Memory.read_cons] using hr x
  | cons c rest ih =>
    obtain ⟨x, v⟩ := c
    simp only [Memory.wf, List.pairwise_cons] at h
    cases m' with
    | nil => simpa [Memory.read_cons] using hr x
    | cons c' rest' =>
      obtain ⟨x', v'⟩ := c'
      simp only [Memory.wf, List.pairwise_cons] at h'
      have hx : x = x' := by
        rcases lt_trichotomy x x' with hlt | heq | hgt
        · have := hr x
          rw [Memory.read_cons, if_pos rfl, Memory.read_cons, if_neg (by omega),
            Memory.read_none_of_below fun c hc => lt_trans hlt (h'.1 c hc)] at this
          simp at this
        · exact heq
        · have := hr x'
          rw [Memory.read_cons, if_neg (by omega), Memory.read_cons, if_pos rfl,
            Memory.read_none_of_below fun c hc => lt_trans hgt (h.1 c hc)] at this
          simp at this
      subst hx
      have hv : v = v' := by simpa [Memory.read_cons] using hr x
      subst hv
      congr 1
      refine ih h.2 h'.2 fun a => ?_
      by_cases ha : a = x
      · subst ha
        rw [Memory.read_none_of_below h.1, Memory.read_none_of_below h'.1]
      · simpa [Memory.read_cons, ha] using hr a

theorem Memory.wf_writeBytes {m : Memory} (h : Memory.wf m) (a : Nat) (bs : List Byte) :
    Memory.wf (Memory.writeBytes m a bs) := by
  induction bs generalizing m a with
  | nil => exact h
  | cons b bs ih => exact ih (Memory.wf_write h a b) _

theorem Memory.read_writeBytes_other (m : Memory) (a : Nat) (bs : List Byte) {a' : Nat}
    (h : a' < a ∨ a + bs.length ≤ a') : (Memory.writeBytes m a bs).read a' = Memory.read m a' := by
  induction bs generalizing m a with
  | nil => rfl
  | cons b bs ih =>
    simp only [List.length_cons] at h
    rw [Memory.writeBytes, ih _ _ (by omega), Memory.read_write_other _ _ (by omega)]

theorem Memory.read_writeBytes (m : Memory) (a : Nat) (bs : List Byte) (k : Nat) (h : k < bs.length) :
    (Memory.writeBytes m a bs).read (a + k) = some bs[k] := by
  induction bs generalizing m a k with
  | nil => simp at h
  | cons b bs ih =>
    rw [Memory.writeBytes]
    cases k with
    | zero => rw [Nat.add_zero, Memory.read_writeBytes_other _ _ _ (by omega)]; simp
    | succ k =>
      have := ih (Memory.write m a b) (a + 1) k (by simpa using h)
      rw [show a + (k + 1) = a + 1 + k by omega, this]
      rfl

end Sys2Proof.Machine
end

