-- ==== Sys2Proof/Laws/State.lean ====
section
/-! SUPPORT. One lemma per field for each named update of the state, and how the views of a state see its updates. -/

namespace Sys2Proof.Machine

variable (s : State) (e : ErrCode) (m : Memory) (d : DecRegs) (u : UndRegs)

@[simp] theorem State.raise_dec : (s.raise e).dec = { s.dec with err := e, status := .err } := rfl
@[simp] theorem State.raise_und : (s.raise e).und = s.und := rfl
@[simp] theorem State.raise_binding : (s.raise e).binding = s.binding := rfl
@[simp] theorem State.raise_ports : (s.raise e).ports = s.ports := rfl
@[simp] theorem State.raise_mem : (s.raise e).mem = s.mem := rfl
@[simp] theorem State.raise_decHeld : (s.raise e).decHeld = s.decHeld := rfl
@[simp] theorem State.raise_undHeld : (s.raise e).undHeld = s.undHeld := rfl
@[simp] theorem State.raise_turns : (s.raise e).turns = s.turns := rfl
@[simp] theorem State.raise_seen : (s.raise e).seen = s.seen := rfl
@[simp] theorem State.raise_free : (s.raise e).free = s.free := rfl

@[simp] theorem State.resetUnits_dec : s.resetUnits.dec = DecRegs.reset := rfl
@[simp] theorem State.resetUnits_und : s.resetUnits.und = UndRegs.reset := rfl
@[simp] theorem State.resetUnits_binding : s.resetUnits.binding = Bindings.unbound := rfl
@[simp] theorem State.resetUnits_decHeld : s.resetUnits.decHeld = false := rfl
@[simp] theorem State.resetUnits_undHeld : s.resetUnits.undHeld = false := rfl

@[simp] theorem State.release_dec (p : OutPort) : (s.release p).dec = s.dec := by cases p <;> rfl
@[simp] theorem State.release_und (p : OutPort) : (s.release p).und = s.und := by cases p <;> rfl
@[simp] theorem State.release_binding (p : OutPort) : (s.release p).binding = s.binding := by cases p <;> rfl
@[simp] theorem State.release_ports (p : OutPort) : (s.release p).ports = s.ports := by cases p <;> rfl
@[simp] theorem State.release_mem (p : OutPort) : (s.release p).mem = s.mem := by cases p <;> rfl
@[simp] theorem State.release_turns (p : OutPort) : (s.release p).turns = s.turns := by cases p <;> rfl
@[simp] theorem State.release_seen (p : OutPort) : (s.release p).seen = s.seen := by cases p <;> rfl
@[simp] theorem State.release_free (p : OutPort) : (s.release p).free = s.free := by cases p <;> rfl

theorem State.release_decHeld (p : OutPort) :
    (s.release p).decHeld = if p = .decStatus then s.decHeld && decide (s.dec.status = .run) else s.decHeld := by
  cases p <;> rfl

theorem State.release_undHeld (p : OutPort) :
    (s.release p).undHeld = if p = .undStatus then s.undHeld && decide (s.und.status = .run) else s.undHeld := by
  cases p <;> rfl

/-- A running unit's buffers stay in its hands whatever port is read (R207). -/
theorem State.release_keeps_decHeld (p : OutPort) (hr : s.dec.status = .run) : (s.release p).decHeld = s.decHeld := by
  rw [State.release_decHeld, hr]; simp

theorem State.release_keeps_undHeld (p : OutPort) (hr : s.und.status = .run) : (s.release p).undHeld = s.undHeld := by
  rw [State.release_undHeld, hr]; simp

@[simp] theorem DecRegs.reset_status : DecRegs.reset.status = .idle := rfl
@[simp] theorem DecRegs.reset_err : DecRegs.reset.err = .none := rfl
@[simp] theorem DecRegs.reset_i : DecRegs.reset.i = 0 := rfl
@[simp] theorem DecRegs.reset_o : DecRegs.reset.o = 0 := rfl
@[simp] theorem DecRegs.reset_len : DecRegs.reset.len = 0 := rfl
@[simp] theorem DecRegs.reset_cap : DecRegs.reset.cap = 0 := rfl
@[simp] theorem UndRegs.reset_status : UndRegs.reset.status = .idle := rfl
@[simp] theorem UndRegs.reset_err : UndRegs.reset.err = .none := rfl
@[simp] theorem UndRegs.reset_j : UndRegs.reset.j = 0 := rfl
@[simp] theorem UndRegs.reset_n : UndRegs.reset.n = 0 := rfl

/-- The buffer bound to a port depends on the bindings alone. -/
theorem State.window_congr {s t : State} (h : t.binding = s.binding) (sp : Space) : t.window sp = s.window sp := by
  cases sp <;> simp [State.window, h]

theorem State.address_congr {s t : State} (h : t.binding = s.binding) (sp : Space) (k : Nat) :
    t.address sp k = s.address sp k := by
  simp [State.address, State.window_congr h]

theorem State.unitsCollide_congr {s t : State} (h : t.binding = s.binding) : t.unitsCollide = s.unitsCollide := by
  simp [State.unitsCollide, h]

/-- Everything the launch check of the decoder asks, once (R63, R204, R208, R209). -/
theorem State.decLaunchProblem_eq_none {s : State} :
    s.decLaunchProblem = none ↔
      s.ports.decLen ≤ Buffer.sizeOf s.binding.inp ∧ s.ports.decCap ≤ Buffer.sizeOf s.binding.out ∧
        Buffer.overlap s.binding.inp s.binding.out = false ∧ (s.und.status = .run → s.unitsCollide = false) := by
  by_cases h : Buffer.sizeOf s.binding.inp < s.ports.decLen ∨ Buffer.sizeOf s.binding.out < s.ports.decCap
  · simp only [State.decLaunchProblem, if_pos h, reduceCtorEq, false_iff]
    omega
  · have h' : s.ports.decLen ≤ Buffer.sizeOf s.binding.inp ∧ s.ports.decCap ≤ Buffer.sizeOf s.binding.out := by omega
    cases ho : Buffer.overlap s.binding.inp s.binding.out <;> simp [State.decLaunchProblem, if_neg h, h', ho]

/-- The same for the delta unit. -/
theorem State.undLaunchProblem_eq_none {s : State} :
    s.undLaunchProblem = none ↔
      s.ports.undBlen ≤ Buffer.sizeOf s.binding.base ∧ s.ports.undElen ≤ Buffer.sizeOf s.binding.enc ∧
        Buffer.overlap s.binding.base s.binding.enc = false ∧ (s.dec.status = .run → s.unitsCollide = false) := by
  by_cases h : Buffer.sizeOf s.binding.base < s.ports.undBlen ∨ Buffer.sizeOf s.binding.enc < s.ports.undElen
  · simp only [State.undLaunchProblem, if_pos h, reduceCtorEq, false_iff]
    omega
  · have h' : s.ports.undBlen ≤ Buffer.sizeOf s.binding.base ∧ s.ports.undElen ≤ Buffer.sizeOf s.binding.enc := by omega
    cases ho : Buffer.overlap s.binding.base s.binding.enc <;> simp [State.undLaunchProblem, if_neg h, h', ho]

end Sys2Proof.Machine
end

