-- ==== Sys2Proof/Laws/Ops.lean ====
section
/-! SUPPORT. One lemma for each shared operation that says everything it can do: addresses, byte accesses, runs of
accesses, and what a reset leaves in a buffer. -/

namespace Sys2Proof.Machine

/-! ### Addresses -/

theorem Buffer.address_eq_some {x : Option Buffer} {k a : Nat} :
    Buffer.address x k = some a ↔ ∃ w, x = some w ∧ k < w.size ∧ a = w.base + k := by
  cases x with
  | none => simp [Buffer.address]
  | some w =>
    simp only [Buffer.address, Option.some.injEq, exists_eq_left']
    split <;> simp_all [eq_comm]

theorem Buffer.address_of_lt {x : Option Buffer} {k : Nat} (h : k < Buffer.sizeOf x) :
    ∃ w, x = some w ∧ Buffer.address x k = some (w.base + k) := by
  cases x with
  | none => simp [Buffer.sizeOf] at h
  | some w => exact ⟨w, rfl, if_pos h⟩

theorem Buffer.address_inj {x : Option Buffer} {j k a : Nat} (hj : Buffer.address x j = some a)
    (hk : Buffer.address x k = some a) : j = k := by
  obtain ⟨w, rfl, _, rfl⟩ := Buffer.address_eq_some.1 hj
  obtain ⟨w', hw, _, h⟩ := Buffer.address_eq_some.1 hk
  obtain rfl := Option.some.inj hw
  omega

/-- Buffers that do not overlap share no address (R63). -/
theorem Buffer.address_apart {x y : Option Buffer} (h : Buffer.overlap x y = false) {j k a b : Nat}
    (hj : Buffer.address x j = some a) (hk : Buffer.address y k = some b) : a ≠ b := by
  obtain ⟨w, rfl, h1, rfl⟩ := Buffer.address_eq_some.1 hj
  obtain ⟨v, rfl, h2, rfl⟩ := Buffer.address_eq_some.1 hk
  simp only [Buffer.overlap, Bool.and_eq_false_iff, decide_eq_false_iff_not] at h
  omega

theorem Buffer.overlap_comm (x y : Option Buffer) : Buffer.overlap x y = Buffer.overlap y x := by
  cases x <;> cases y <;> simp [Buffer.overlap, Bool.and_comm, Bool.and_left_comm]

/-- An address of a buffer is held by it. -/
theorem Buffer.holds_of_address {x : Option Buffer} {k a : Nat} (h : Buffer.address x k = some a) :
    Buffer.holds x a = true := by
  obtain ⟨w, rfl, _, rfl⟩ := Buffer.address_eq_some.1 h
  simp only [Buffer.holds, Bool.and_eq_true, decide_eq_true_eq]
  omega

theorem State.address_of_lt {s : State} {sp : Space} {k : Nat} (h : k < Buffer.sizeOf (s.window sp)) :
    ∃ a, s.address sp k = some a := by
  obtain ⟨w, _, h⟩ := Buffer.address_of_lt h
  exact ⟨_, h⟩

theorem State.address_inj {s : State} {sp : Space} {j k a : Nat} (hj : s.address sp j = some a)
    (hk : s.address sp k = some a) : j = k := Buffer.address_inj hj hk

theorem State.peek_eq_some {s : State} {sp : Space} {k : Nat} {b : Byte} :
    s.peek sp k = some b ↔ ∃ a, s.address sp k = some a ∧ s.mem.read a = some b := by
  unfold State.peek
  split <;> simp_all

/-! ### One byte -/

theorem State.readByte_eq_ok {s : State} {sp : Space} {k : Nat} {b : Byte} :
    s.readByte sp k = .ok b ↔ k < s.declared sp ∧ s.peek sp k = some b := by
  unfold State.readByte State.peek
  split
  · rename_i h
    cases ha : s.address sp k with
    | none => simp
    | some a =>
      cases hm : s.mem.read a with
      | none => simp [hm]
      | some v => simp [hm, h]
  · simp_all

theorem State.storeByte_eq_ok {s t : State} {sp : Space} {k : Nat} {b : Byte} :
    s.storeByte sp k b = .ok t ↔
      k < s.declared sp ∧ ∃ a, s.address sp k = some a ∧ t = { s with mem := s.mem.write a b } := by
  unfold State.storeByte
  split
  · cases ha : s.address sp k with
    | none => simp
    | some a =>
      simp only [Except.ok.injEq, Option.some.injEq, exists_eq_left']
      exact ⟨fun h => ⟨by assumption, h.symm⟩, fun h => h.2.symm⟩
  · simp_all

/-! ### Runs of bytes -/

/-- The views of a state that differs in its memory only. -/
@[simp] theorem State.address_setMem (s : State) (m : Memory) (sp : Space) (k : Nat) :
    ({ s with mem := m } : State).address sp k = s.address sp k := State.address_congr rfl sp k

@[simp] theorem State.declared_setMem (s : State) (m : Memory) (sp : Space) :
    ({ s with mem := m } : State).declared sp = s.declared sp := by cases sp <;> rfl

@[simp] theorem State.window_setMem (s : State) (m : Memory) (sp : Space) :
    ({ s with mem := m } : State).window sp = s.window sp := State.window_congr rfl sp

/-- Everything a run of writes can do: only memory changes, it stays canonical, the bytes stand in the buffer and every
other byte of memory is as before (R54, R71). -/
theorem State.storeRun_spec {sp : Space} {bs : List Byte} {s t : State} {k : Nat} (h : s.storeRun sp k bs = .ok t) :
    t = { s with mem := t.mem } ∧ (Memory.wf s.mem → Memory.wf t.mem) ∧ s.SameMemoryBut t sp k (k + bs.length) ∧
      t.Holds sp k bs := by
  induction bs generalizing s k with
  | nil =>
    simp only [State.storeRun, Except.ok.injEq] at h
    subst h
    exact ⟨rfl, id, fun _ _ => rfl, trivial⟩
  | cons b bs ih =>
    simp only [State.storeRun] at h
    cases h1 : s.storeByte sp k b with
    | error f => simp [h1] at h
    | ok s1 =>
      simp only [h1] at h
      obtain ⟨hk, a, ha, rfl⟩ := State.storeByte_eq_ok.1 h1
      obtain ⟨e, hwf, same, holds⟩ := ih h
      have hb : t.binding = s.binding := by rw [e]
      refine ⟨by rw [e], fun hm => hwf (Memory.wf_write hm a b), fun a' ha' => ?_, ?_, holds⟩
      · rw [same a' fun j h1 h2 => ?_]
        · refine Memory.read_write_other _ _ fun he => ha' k (le_refl k) (by simp) (by rw [ha, he])
        · rw [State.address_setMem]
          exact ha' j (by omega) (by simp only [List.length_cons]; omega)
      · refine State.peek_eq_some.2 ⟨a, by rw [State.address_congr hb, ha], ?_⟩
        rw [same a fun j h1 _ hj => ?_]
        · simp
        · rw [State.address_setMem] at hj
          have := State.address_inj hj ha
          omega

/-- A run of writes inside the declared bound and inside the bound buffer goes through (R58). -/
theorem State.storeRun_completes {sp : Space} {bs : List Byte} {s : State} {k : Nat}
    (hd : bs ≠ [] → k + bs.length ≤ s.declared sp) (hw : bs ≠ [] → k + bs.length ≤ Buffer.sizeOf (s.window sp)) :
    ∃ t, s.storeRun sp k bs = .ok t := by
  induction bs generalizing s k with
  | nil => exact ⟨s, rfl⟩
  | cons b bs ih =>
    have hd := hd (by simp)
    have hw := hw (by simp)
    simp only [List.length_cons] at hd hw
    obtain ⟨a, ha⟩ := State.address_of_lt (s := s) (sp := sp) (k := k) (by omega)
    have h1 : s.storeByte sp k b = .ok { s with mem := s.mem.write a b } :=
      State.storeByte_eq_ok.2 ⟨by omega, a, ha, rfl⟩
    obtain ⟨t, ht⟩ := ih (s := { s with mem := s.mem.write a b }) (k := k + 1)
      (fun _ => by rw [State.declared_setMem]; omega) (fun _ => by rw [State.window_setMem]; omega)
    exact ⟨t, by simp only [State.storeRun, h1, ht]⟩

/-- A run of writes that went through stayed inside the bound (R58). -/
theorem State.storeRun_bound {sp : Space} {bs : List Byte} {s t : State} {k : Nat} (h : s.storeRun sp k bs = .ok t)
    (hne : bs ≠ []) : k + bs.length ≤ s.declared sp := by
  induction bs generalizing s k with
  | nil => exact absurd rfl hne
  | cons b bs ih =>
    simp only [State.storeRun] at h
    cases h1 : s.storeByte sp k b with
    | error f => simp [h1] at h
    | ok s1 =>
      simp only [h1] at h
      obtain ⟨hk, a, _, rfl⟩ := State.storeByte_eq_ok.1 h1
      simp only [List.length_cons]
      by_cases hb : bs = []
      · subst hb; simp only [List.length_nil]; omega
      · have := ih h hb
        rw [State.declared_setMem] at this
        omega

/-- A run of reads gives exactly the bytes the buffer holds there. -/
theorem State.readRun_spec {sp : Space} {n : Nat} {s : State} {k : Nat} {bs : List Byte}
    (h : s.readRun sp k n = .ok bs) : bs.length = n ∧ s.Holds sp k bs ∧ (0 < n → k + n ≤ s.declared sp) := by
  induction n generalizing k bs with
  | zero =>
    simp only [State.readRun, Except.ok.injEq] at h
    subst h
    exact ⟨rfl, trivial, fun h => absurd h (by omega)⟩
  | succ n ih =>
    simp only [State.readRun] at h
    cases h1 : s.readByte sp k with
    | error f => simp [h1] at h
    | ok b =>
      cases h2 : s.readRun sp (k + 1) n with
      | error f => simp [h1, h2] at h
      | ok bs' =>
        simp only [h1, h2, Except.ok.injEq] at h
        subst h
        obtain ⟨h3, h4⟩ := State.readByte_eq_ok.1 h1
        obtain ⟨h5, h6, h7⟩ := ih h2
        refine ⟨by simp [h5], ⟨h4, h6⟩, fun _ => ?_⟩
        rcases Nat.eq_zero_or_pos n with rfl | hn
        · omega
        · have := h7 hn
          omega

/-- A run of reads inside the bound, of bytes the buffer holds, gives those bytes. -/
theorem State.readRun_of_holds {sp : Space} {bs : List Byte} {s : State} {k : Nat} (h : s.Holds sp k bs)
    (hd : k + bs.length ≤ s.declared sp) : s.readRun sp k bs.length = .ok bs := by
  induction bs generalizing k with
  | nil => rfl
  | cons b bs ih =>
    simp only [List.length_cons] at hd ⊢
    have h1 : s.readByte sp k = .ok b := State.readByte_eq_ok.2 ⟨by omega, h.1⟩
    simp only [State.readRun, h1, ih h.2 (by omega)]

/-! ### What a buffer holds -/

theorem State.Holds.get {sp : Space} {bs : List Byte} {s : State} {k : Nat} (h : s.Holds sp k bs) (j : Nat)
    (hj : j < bs.length) : s.peek sp (k + j) = some bs[j] := by
  induction bs generalizing k j with
  | nil => simp at hj
  | cons b bs ih =>
    cases j with
    | zero => exact h.1
    | succ j =>
      rw [show k + (j + 1) = k + 1 + j by omega]
      exact ih h.2 j (by simpa using hj)

theorem State.holds_of_get {sp : Space} {bs : List Byte} {s : State} {k : Nat}
    (h : ∀ j (hj : j < bs.length), s.peek sp (k + j) = some bs[j]) : s.Holds sp k bs := by
  induction bs generalizing k with
  | nil => trivial
  | cons b bs ih =>
    refine ⟨h 0 (by simp), ih fun j hj => ?_⟩
    rw [show k + 1 + j = k + (j + 1) by omega]
    exact h (j + 1) (by simp only [List.length_cons]; omega)

theorem State.holds_append {sp : Space} {as bs : List Byte} {s : State} {k : Nat} :
    s.Holds sp k (as ++ bs) ↔ s.Holds sp k as ∧ s.Holds sp (k + as.length) bs := by
  induction as generalizing k with
  | nil => simp [State.Holds]
  | cons a as ih =>
    simp only [List.cons_append, State.Holds, ih, List.length_cons, and_assoc]
    rw [show k + 1 + as.length = k + (as.length + 1) by omega]

/-- A buffer none of whose bytes is among those written is as before. -/
theorem State.SameMemoryBut.peek {s t : State} {sp sp' : Space} {lo hi : Nat} (h : s.SameMemoryBut t sp lo hi)
    (hb : t.binding = s.binding) (k : Nat)
    (hk : ∀ j, lo ≤ j → j < hi → ∀ a, s.address sp j = some a → s.address sp' k ≠ some a) :
    t.peek sp' k = s.peek sp' k := by
  unfold State.peek
  rw [State.address_congr hb]
  cases ha : s.address sp' k with
  | none => rfl
  | some a => exact h a fun j h1 h2 hj => hk j h1 h2 a hj ha

/-- The same buffer outside the bytes written. -/
theorem State.SameMemoryBut.peek_outside {s t : State} {sp : Space} {lo hi : Nat} (h : s.SameMemoryBut t sp lo hi)
    (hb : t.binding = s.binding) {k : Nat} (hk : k < lo ∨ hi ≤ k) : t.peek sp k = s.peek sp k :=
  h.peek hb k fun j h1 h2 a hj ha => by have := State.address_inj hj ha; omega

/-- Another buffer that does not overlap the one written. -/
theorem State.SameMemoryBut.peek_apart {s t : State} {sp sp' : Space} {lo hi : Nat} (h : s.SameMemoryBut t sp lo hi)
    (hb : t.binding = s.binding) (hap : Buffer.overlap (s.window sp) (s.window sp') = false) (k : Nat) :
    t.peek sp' k = s.peek sp' k :=
  h.peek hb k fun _ _ _ _ hj ha => Buffer.address_apart hap hj ha rfl

theorem State.Holds.congr {s t : State} {sp : Space} {bs : List Byte} {k : Nat} (h : s.Holds sp k bs)
    (hp : ∀ j, k ≤ j → j < k + bs.length → t.peek sp j = s.peek sp j) : t.Holds sp k bs :=
  State.holds_of_get fun j hj => by rw [hp _ (by omega) (by omega)]; exact h.get j hj

/-! ### What a reset leaves -/

/-- Everything a reset does to a buffer: only its own bytes change, and memory stays canonical (R201). -/
theorem State.scramble_spec (s : State) (sp : Space) (n : Nat) :
    (∃ m f, s.scramble sp n = { s with mem := m, free := f }) ∧
      (Memory.wf s.mem → Memory.wf (s.scramble sp n).mem) ∧ s.SameMemoryBut (s.scramble sp n) sp 0 n := by
  induction n with
  | zero => exact ⟨⟨s.mem, s.free, rfl⟩, id, fun _ _ => rfl⟩
  | succ n ih =>
    obtain ⟨⟨m, f, e⟩, hwf, same⟩ := ih
    have hb : (s.scramble sp n).binding = s.binding := by rw [e]
    simp only [State.scramble]
    cases ha : (s.scramble sp n).address sp n with
    | none => exact ⟨⟨m, f, e⟩, hwf, fun a h => same a fun k h1 h2 => h k h1 (by omega)⟩
    | some a =>
      refine ⟨⟨_, _, by rw [e]⟩, fun h => Memory.wf_write (hwf h) _ _, fun a' h => ?_⟩
      rw [State.address_congr hb] at ha
      show Memory.read (Memory.write _ _ _) a' = _
      rw [Memory.read_write_other _ _ fun he => h n (by omega) (by omega) (by rw [ha, he])]
      exact same a' fun k h1 h2 => h k h1 (by omega)

end Sys2Proof.Machine
end

