-- ==== Sys2Proof/Laws/PerInstr.lean ====
section
/-! SUPPORT. Statements made for every record kind, one lemma per constructor. -/

namespace Sys2Proof.Laws.EncodedLength

/-- A well-formed record takes as many bytes as its kind and count say, and produces `count` bytes (spec 30_encoding R80, R89, R93). -/
def Statement (i : Instr) : Prop :=
  i.wf = true → (encode i).length = i.length ∧ i.expansion.length = i.count

theorem repeatRun (count : Nat) (value : Byte) : Statement (.repeatRun count value) := by
  intro _
  exact ⟨rfl, by simp [Instr.expansion, Instr.count]⟩

theorem literalRun (count : Nat) (bytes : List Byte) : Statement (.literalRun count bytes) := by
  intro h
  obtain ⟨_, hb⟩ := Instr.wf_literalRun.1 h
  exact ⟨by simp only [encode, List.length_cons, Instr.length]; omega, hb⟩

end Sys2Proof.Laws.EncodedLength
end

