-- ==== Sys2Proof/Laws/Records.lean ====
section
/-! SUPPORT. Everything a record can do: raise one error, or write its expansion and advance (spec 40_rle_records R103, R105). -/

namespace Sys2Proof.Machine

/-- Everything the two checks can answer (R171, R172, R176). -/
theorem State.recordError_cases (s : State) (len n : Nat) :
    (s.recordError len n = some .truncatedInput ∧ s.dec.i + len > s.dec.len) ∨
      (s.recordError len n = some .outputOverflow ∧ s.dec.i + len ≤ s.dec.len ∧ s.dec.o + n > s.dec.cap) ∨
      (s.recordError len n = none ∧ s.dec.i + len ≤ s.dec.len ∧ s.dec.o + n ≤ s.dec.cap) := by
  unfold State.recordError
  split
  · exact .inl ⟨rfl, by assumption⟩
  · split
    · exact .inr (.inl ⟨rfl, by omega, by assumption⟩)
    · exact .inr (.inr ⟨rfl, by omega, by omega⟩)

/-- A record past the end of the stream raises `TruncatedInput` and does nothing else (R171, R174, R175). -/
theorem completeRecord_truncated {len n : Nat} {bytes : List Byte} {s : State} (h : s.dec.i + len > s.dec.len) :
    completeRecord len n bytes s = .next (s.raise .truncatedInput) := by
  unfold completeRecord State.recordError
  rw [if_pos h]

/-- A record whose output does not fit raises `OutputOverflow` and does nothing else (R172, R174, R175). -/
theorem completeRecord_overflow {len n : Nat} {bytes : List Byte} {s : State} (h : s.dec.i + len ≤ s.dec.len)
    (ho : s.dec.o + n > s.dec.cap) : completeRecord len n bytes s = .next (s.raise .outputOverflow) := by
  unfold completeRecord State.recordError
  rw [if_neg (by omega), if_pos ho]

/-- A record that fits is written and the scan advances; everything else is as before (R103, R105). -/
theorem completeRecord_completes {len n : Nat} {bytes : List Byte} {s : State} (hb : bytes.length = n)
    (h : s.dec.i + len ≤ s.dec.len) (ho : s.dec.o + n ≤ s.dec.cap)
    (hw : n ≠ 0 → s.dec.cap ≤ Buffer.sizeOf s.binding.out) :
    ∃ m, completeRecord len n bytes s =
        .next { s with mem := m, dec := { s.dec with i := s.dec.i + len, o := s.dec.o + n } } ∧
      (Memory.wf s.mem → Memory.wf m) ∧
      s.SameMemoryBut { s with mem := m } .out s.dec.o (s.dec.o + n) ∧
      ({ s with mem := m } : State).Holds .out s.dec.o bytes := by
  subst hb
  have hne : bytes ≠ [] → bytes.length ≠ 0 := by cases bytes <;> simp
  obtain ⟨t, ht⟩ := State.storeRun_completes (s := s) (sp := .out) (k := s.dec.o) (bs := bytes) (fun _ => ho)
    (fun hb => by have := hw (hne hb); simp only [State.window]; omega)
  obtain ⟨e, hwf, same, holds⟩ := State.storeRun_spec ht
  refine ⟨t.mem, ?_, hwf, by rwa [e] at same, by rwa [e] at holds⟩
  unfold completeRecord State.recordError State.storeOutput
  rw [if_neg (by omega), if_neg (by omega), ht]
  show Host.Outcome.next _ = _
  rw [e]

/-- Everything a record can do when it answers a next state (R103, R105, R174, R175). -/
theorem completeRecord_cases {len n : Nat} {bytes : List Byte} {s t : State}
    (h : completeRecord len n bytes s = .next t) :
    (t = s.raise .truncatedInput ∧ s.dec.i + len > s.dec.len) ∨
      (t = s.raise .outputOverflow ∧ s.dec.i + len ≤ s.dec.len ∧ s.dec.o + n > s.dec.cap) ∨
      (∃ m, t = { s with mem := m, dec := { s.dec with i := s.dec.i + len, o := s.dec.o + n } } ∧
        s.dec.i + len ≤ s.dec.len ∧ s.dec.o + n ≤ s.dec.cap ∧ (Memory.wf s.mem → Memory.wf m) ∧
        s.SameMemoryBut { s with mem := m } .out s.dec.o (s.dec.o + bytes.length) ∧
        ({ s with mem := m } : State).Holds .out s.dec.o bytes) := by
  unfold completeRecord at h
  rcases s.recordError_cases len n with ⟨e, hi⟩ | ⟨e, hi, ho⟩ | ⟨e, hi, ho⟩
  · simp only [e, Host.Outcome.next.injEq] at h
    exact .inl ⟨h.symm, hi⟩
  · simp only [e, Host.Outcome.next.injEq] at h
    exact .inr (.inl ⟨h.symm, hi, ho⟩)
  · simp only [e] at h
    cases hs : s.storeOutput bytes with
    | error f => simp [hs] at h
    | ok u =>
      simp only [hs, Host.Outcome.next.injEq] at h
      obtain ⟨e, hwf, same, holds⟩ := State.storeRun_spec hs
      refine .inr (.inr ⟨u.mem, ?_, hi, ho, hwf, by rwa [e] at same, by rwa [e] at holds⟩)
      rw [← h, e]

/-- A record is its length, its count and its expansion: both kinds are `completeRecord` of the three (R103, R105). -/
theorem exec_eq_completeRecord (i : Instr) (s : State) :
    exec i s = completeRecord i.length i.count i.expansion s := by
  cases i <;> rfl

end Sys2Proof.Machine
end

