-- ==== Sys2Proof/Laws/Step.lean ====
section
/-! SUPPORT. Everything a step of a unit can do: one inversion lemma and one completion lemma for each (spec
40_rle_records R100 to R102, 41_delta_reversal R131, R133). -/

namespace Sys2Proof.Machine

/-- The control-byte fetch gives the byte the stream holds at the scan index (R101). -/
theorem State.fetchControl_eq_ok {s : State} {c : Byte} :
    s.fetchControl = .ok c ↔ s.dec.i < s.dec.len ∧ s.peek .inp s.dec.i = some c :=
  State.readByte_eq_ok

/-- A record that fails a check raises its error whatever its body is (R175). -/
theorem decRecord_raises {s : State} {c : Byte} {e : ErrCode} (hi : s.dec.i < s.dec.len)
    (hc : s.peek .inp s.dec.i = some c) (he : s.recordError (recordLength c) (controlCount c) = some e) :
    decRecord s = .next (s.raise e) := by
  unfold decRecord
  rw [State.fetchControl_eq_ok.2 ⟨hi, hc⟩]
  simp only [he]

/-- With the whole record in the stream, the decoder runs exactly the record its bytes decode to (R100, R101). -/
theorem decRecord_runs {s : State} {c : Byte} {body : List Byte} {i : Instr} (hc : s.peek .inp s.dec.i = some c)
    (hl : 1 + body.length = recordLength c) (hfit : s.dec.i + recordLength c ≤ s.dec.len)
    (hb : s.Holds .inp (s.dec.i + 1) body) (hd : decodeRecord (c :: body) = .ok (i, [])) :
    decRecord s = exec i s := by
  obtain ⟨_, hlen, hcnt, _, _⟩ := decodeRecord_wf hd
  have hpos := recordLength_pos c
  have hi : s.dec.i < s.dec.len := by omega
  rcases s.recordError_cases (recordLength c) (controlCount c) with ⟨e, h⟩ | ⟨e, _, _⟩ | ⟨e, _, _⟩
  · omega
  · rw [decRecord_raises hi hc e, exec_eq_completeRecord, hlen, hcnt]
    exact (completeRecord_overflow (by assumption) (by assumption)).symm
  · unfold decRecord
    rw [State.fetchControl_eq_ok.2 ⟨hi, hc⟩]
    have hbody : s.fetchBody (recordLength c) = .ok body := by
      unfold State.fetchBody
      rw [show recordLength c - 1 = body.length by omega]
      exact State.readRun_of_holds hb (by simp only [State.declared]; omega)
    simp only [e, hbody, hd]

/-- Everything the decoder's record step can do when it answers a next state (R101, R103, R105, R174). -/
theorem decRecord_cases {s t : State} (h : decRecord s = .next t) :
    ∃ c, s.dec.i < s.dec.len ∧ s.peek .inp s.dec.i = some c ∧
      ((t = s.raise .truncatedInput ∧ s.dec.i + recordLength c > s.dec.len) ∨
        (t = s.raise .outputOverflow ∧ s.dec.i + recordLength c ≤ s.dec.len ∧ s.dec.o + controlCount c > s.dec.cap) ∨
        (∃ body i m, 1 + body.length = recordLength c ∧ s.Holds .inp (s.dec.i + 1) body ∧
          decodeRecord (c :: body) = .ok (i, []) ∧
          t = { s with mem := m, dec := { s.dec with i := s.dec.i + recordLength c, o := s.dec.o + controlCount c } } ∧
          s.dec.i + recordLength c ≤ s.dec.len ∧ s.dec.o + controlCount c ≤ s.dec.cap ∧
          (Memory.wf s.mem → Memory.wf m) ∧
          s.SameMemoryBut { s with mem := m } .out s.dec.o (s.dec.o + controlCount c) ∧
          ({ s with mem := m } : State).Holds .out s.dec.o i.expansion)) := by
  unfold decRecord at h
  cases hc : s.fetchControl with
  | error f => simp [hc] at h
  | ok c =>
    simp only [hc] at h
    obtain ⟨hi, hp⟩ := State.fetchControl_eq_ok.1 hc
    refine ⟨c, hi, hp, ?_⟩
    rcases s.recordError_cases (recordLength c) (controlCount c) with ⟨e, hx⟩ | ⟨e, hx, ho⟩ | ⟨e, hx, ho⟩
    · simp only [e, Host.Outcome.next.injEq] at h
      exact .inl ⟨h.symm, hx⟩
    · simp only [e, Host.Outcome.next.injEq] at h
      exact .inr (.inl ⟨h.symm, hx, ho⟩)
    · simp only [e] at h
      cases hb : s.fetchBody (recordLength c) with
      | error f => simp [hb] at h
      | ok body =>
        simp only [hb] at h
        obtain ⟨hl, hh, _⟩ := State.readRun_spec hb
        have hpos := recordLength_pos c
        have hl : 1 + body.length = recordLength c := by omega
        obtain ⟨i, hd, _, hlen, hcnt, hexp⟩ := decodeRecord_whole c body [] hl
        rw [List.append_nil] at hd
        simp only [hd, exec_eq_completeRecord, hlen, hcnt] at h
        rcases completeRecord_cases h with ⟨_, hx'⟩ | ⟨_, _, ho'⟩ | ⟨m, ht, _, _, hwf, same, holds⟩
        · omega
        · omega
        · rw [hexp] at same
          exact .inr (.inr ⟨body, i, m, hl, hh, hd, ht, hx, ho, hwf, same, holds⟩)

/-- Everything the delta unit's element step can do (R131). -/
theorem undElement_cases {s t : State} (h : undElement s = .next t) :
    ∃ b e a, s.und.j < s.und.n ∧ s.peek .base s.und.j = some b ∧ s.peek .enc s.und.j = some e ∧
      s.address .enc s.und.j = some a ∧
      t = { s with mem := s.mem.write a (undiffByte b e), und := { s.und with j := s.und.j + 1 } } := by
  unfold undElement at h
  cases hb : s.fetchBase with
  | error f => simp [hb] at h
  | ok b =>
    cases he : s.fetchDelta with
    | error f => simp [hb, he] at h
    | ok e =>
      simp only [hb, he] at h
      obtain ⟨hj, hb⟩ := State.readByte_eq_ok.1 hb
      obtain ⟨_, he⟩ := State.readByte_eq_ok.1 he
      cases hs : s.storeResult (undiffByte b e) with
      | error f => simp [hs] at h
      | ok u =>
        simp only [hs, Host.Outcome.next.injEq] at h
        obtain ⟨_, a, ha, rfl⟩ := State.storeByte_eq_ok.1 hs
        exact ⟨b, e, a, hj, hb, he, ha, h.symm⟩

/-- An element both of whose bytes are written is replaced by base minus encoded (R131). -/
theorem undElement_completes {s : State} {b e : Byte} (hj : s.und.j < s.und.n)
    (hb : s.peek .base s.und.j = some b) (he : s.peek .enc s.und.j = some e) :
    ∃ a, s.address .enc s.und.j = some a ∧
      undElement s =
        .next { s with mem := s.mem.write a (undiffByte b e), und := { s.und with j := s.und.j + 1 } } := by
  obtain ⟨a, ha, _⟩ := State.peek_eq_some.1 he
  have h1 : s.fetchBase = .ok b := State.readByte_eq_ok.2 ⟨hj, hb⟩
  have h2 : s.fetchDelta = .ok e := State.readByte_eq_ok.2 ⟨hj, he⟩
  have h3 : s.storeResult (undiffByte b e) = .ok { s with mem := s.mem.write a (undiffByte b e) } :=
    State.storeByte_eq_ok.2 ⟨hj, a, ha, rfl⟩
  refine ⟨a, ha, ?_⟩
  unfold undElement
  simp only [h1, h2, h3]

/-- A step takes the next listed move. -/
theorem step_of_turn {s : State} {x : Turn} {rest : List Turn} (h : s.turns = x :: rest) :
    step s = takeTurn x { s with turns := rest } := by
  unfold step
  rw [h]

/-- With no move listed, the running units go on by themselves. -/
theorem step_of_no_turn {s : State} (h : s.turns = []) : step s = freeRun s := by
  unfold step
  rw [h]

/-- A step that answers a next state is the first of a run. -/
theorem runFor_succ {k : Nat} {s u : State} (h : step s = .next u) : runFor (k + 1) s = runFor k u := by
  simp only [runFor, h]

/-- Any machine that steps as this one runs as `runFor`. -/
theorem runFor_eq_of_step (run : Nat → State → Answer) (h0 : ∀ s, run 0 s = .next s)
    (hs : ∀ k s t, step s = .next t → run (k + 1) s = run k t) (hf : ∀ k s f, step s = .fault f → run (k + 1) s = .fault f)
    (hr : ∀ k s r, step s = .refused r → run (k + 1) s = .refused r) (k : Nat) (s : State) : runFor k s = run k s := by
  induction k generalizing s with
  | zero => exact (h0 s).symm
  | succ k ih =>
    unfold runFor
    cases h : step s with
    | next t => rw [hs k s t h]; exact ih t
    | fault f => exact (hf k s f h).symm
    | refused r => exact (hr k s r h).symm

theorem core_run_next (M : Host.Core) (k : Nat) (s t : M.State) (h : M.step s = .next t) : M.run (k + 1) s = M.run k t := by
  simp only [Host.Core.run, h]

theorem core_run_fault (M : Host.Core) (k : Nat) (s : M.State) (f : M.Fault) (h : M.step s = .fault f) :
    M.run (k + 1) s = .fault f := by
  simp only [Host.Core.run, h]

theorem core_run_refused (M : Host.Core) (k : Nat) (s : M.State) (r : M.Refusal) (h : M.step s = .refused r) :
    M.run (k + 1) s = .refused r := by
  simp only [Host.Core.run, h]

/-- `runFor` is the host's own `run` of this machine. -/
theorem runFor_eq_run (k : Nat) (s : State) : runFor k s = Host.Core.run Sys2Proof.core k s :=
  runFor_eq_of_step (fun k s => Host.Core.run Sys2Proof.core k s) (fun _ => rfl)
    (core_run_next Sys2Proof.core) (core_run_fault Sys2Proof.core) (core_run_refused Sys2Proof.core) k s

end Sys2Proof.Machine
end

