-- ==== Sys2Proof/Tests/Slice0.lean ====
section
/-! SUPPORT. The model's own tests: ill-formed records, words written out from the spec's encodings, single steps of the
spec's own vectors, and for every statement with hypotheses a concrete case that meets them. -/

namespace Sys2Proof.Tests

open Sys2Proof Sys2Proof.Machine

/-! ### Well-formedness (spec 30_encoding R93) -/

theorem test_wf_refuses_repeat_count : (Instr.repeatRun 128 0x00#8).wf = false := by decide
theorem test_wf_refuses_literal_count : (Instr.literalRun 128 (List.replicate 128 0x00#8)).wf = false := by decide
theorem test_wf_refuses_literal_length : (Instr.literalRun 2 [0x01#8]).wf = false := by decide
theorem test_wf_accepts_extremes :
    (Instr.repeatRun 127 0xFF#8).wf = true ∧ (Instr.repeatRun 0 0x00#8).wf = true ∧ (Instr.literalRun 0 []).wf = true := by
  decide

/-! ### Decoding, words written out from R81 to R83 (vectors T-C of 95_test_vectors) -/

/-- `0nnnnnnn vvvvvvvv` with `n = 64`, `v = 0x80` (T-C4, T-R7). -/
theorem test_decode_repeat_bits : decodeRecord [0b01000000#8, 0b10000000#8] = .ok (.repeatRun 64 0x80#8, []) := by decide
/-- `1nnnnnnn` with `n = 2`, then `0x80`, `0x05`; the rest is left over (T-L4). -/
theorem test_decode_literal_bits :
    decodeRecord [0b10000010#8, 0x80#8, 0x05#8, 0x7F#8] = .ok (.literalRun 2 [0x80#8, 0x05#8], [0x7F#8]) := by decide
/-- T-E1, T-E4: bytes too few. -/
theorem test_decode_truncated :
    decodeRecord [0x00#8] = .error .truncatedRepeat ∧ decodeRecord [0x83#8, 0x01#8, 0x02#8] = .error .truncatedLiteral ∧
      decodeRecord [] = .error .noControlByte := by decide
/-- T-C10: `0xFF` is `LITERAL 127`, 128 bytes long. -/
theorem test_decode_longest : controlMode 0xFF#8 = true ∧ controlCount 0xFF#8 = 127 ∧ recordLength 0xFF#8 = 128 := by decide
/-- P1 assembled and parsed. -/
theorem test_parse_program1 :
    parse [0x03#8, 0x00#8, 0x82#8, 0x01#8, 0x00#8] = ⟨[.repeatRun 3 0x00#8, .literalRun 2 [0x01#8, 0x00#8]], none⟩ ∧
      assemble [.repeatRun 3 0x00#8, .literalRun 2 [0x01#8, 0x00#8]] = [0x03#8, 0x00#8, 0x82#8, 0x01#8, 0x00#8] := by decide
/-- P5: a truncated record at index 2. -/
theorem test_parse_program5 :
    parse [0x02#8, 0x11#8, 0x84#8, 0x01#8, 0x02#8] = ⟨[.repeatRun 2 0x11#8], some 2⟩ := by decide
/-- T-E10 and T-E13 through the spec's `decode`. -/
theorem test_decodeStream_errors :
    decodeStream [0x01#8, 0x07#8, 0x85#8, 0x01#8, 0x02#8] 2 = .failed .truncatedInput 2 [0x07#8] ∧
      decodeStream [0x03#8, 0x00#8, 0x82#8, 0x01#8, 0x00#8] 4 = .failed .outputOverflow 2 [0x00#8, 0x00#8, 0x00#8] := by
  decide

/-! ### A small machine -/

/-- Host memory with the stream of P1 at 0, the buffers of T-U1 at 16 and 24, and room for five bytes at 8. -/
def demoMem : Memory :=
  [(0, 0x03#8), (1, 0x00#8), (2, 0x82#8), (3, 0x01#8), (4, 0x00#8),
   (16, 0x0A#8), (17, 0x00#8), (18, 0xC8#8), (24, 0x03#8), (25, 0x01#8), (26, 0xFA#8)]

def demoBinding : Bindings := { inp := some ⟨0, 5⟩, out := some ⟨8, 5⟩, base := some ⟨16, 3⟩, enc := some ⟨24, 3⟩ }

def demo (dec : DecRegs) (und : UndRegs) (turns : List Turn) : State :=
  { State.reset with
    dec := dec, und := und, turns := turns, binding := demoBinding, mem := demoMem
    ports := { decLen := 5, decCap := 5, undBlen := 3, undElen := 3 }
    decHeld := decide (dec.status = .run), undHeld := decide (und.status = .run) }

/-- The decoder in `RUN` on the stream of P1. -/
def decAt (i o cap : Nat) : DecRegs := { i := i, o := o, len := 5, cap := cap, status := .run, err := .none }

/-- The delta unit in `RUN` on the buffers of T-U1. -/
def undAt (j : Nat) : UndRegs := { j := j, n := 3, status := .run, err := .none }

/-- Both units idle. -/
def idleWith (turns : List Turn) : State := demo DecRegs.reset UndRegs.reset turns

def onNext (a : Answer) (p : State → Bool) : Bool :=
  match a with
  | .next t => p t
  | _ => false

/-! ### Single steps of the spec's vectors -/

/-- P1, step 1: `REPEAT 3, 0x00`. -/
theorem test_repeat_writes : onNext (step (demo (decAt 0 0 5) UndRegs.reset [])) (fun t =>
    t.dec == decAt 2 3 5 && t.peek .out 0 == some 0x00#8 && t.peek .out 2 == some 0x00#8 && t.peek .out 3 == none) = true := by
  decide
/-- R103 with no room: nothing is written, `I` and `O` stay. -/
theorem test_repeat_overflows : onNext (step (demo (decAt 0 0 2) UndRegs.reset [])) (fun t =>
    t.dec == { decAt 0 0 2 with status := .err, err := .outputOverflow } && t.mem == demoMem) = true := by
  decide
/-- P1, step 2: `LITERAL 2, 0x01, 0x00`. -/
theorem test_literal_copies : onNext (step (demo (decAt 2 3 5) UndRegs.reset [])) (fun t =>
    t.dec == decAt 5 5 5 && t.peek .out 3 == some 0x01#8 && t.peek .out 4 == some 0x00#8 && t.peek .out 2 == none) = true := by
  decide
/-- T-E13, step 2: the literal does not fit although one of its bytes would. -/
theorem test_literal_overflows : onNext (step (demo (decAt 2 3 4) UndRegs.reset [])) (fun t =>
    t.dec == { decAt 2 3 4 with status := .err, err := .outputOverflow } && t.mem == demoMem) = true := by
  decide
/-- T-E4's shape: with the stream cut at 4 the literal at 2 is one byte short. -/
theorem test_literal_truncated : onNext (step (demo { decAt 2 3 5 with len := 4 } UndRegs.reset [])) (fun t =>
    t.dec == { decAt 2 3 5 with len := 4, status := .err, err := .truncatedInput } && t.mem == demoMem) = true := by
  decide
/-- T-U1, element 1: `0 - 1 = 255`. -/
theorem test_undiff_wraps : onNext (step (demo DecRegs.reset (undAt 1) [])) (fun t =>
    t.und == undAt 2 && t.peek .enc 1 == some 0xFF#8 && t.peek .base 1 == some 0x00#8 && t.peek .enc 0 == some 0x03#8) = true := by
  decide
/-- T-H2: `DEC.START`. -/
theorem test_decStart : onNext (step (idleWith [.host .decStart])) (fun t => t.dec == decAt 0 0 5) = true := by decide
/-- T-H6: `UND.START` with unequal lengths. -/
theorem test_undStart_mismatch : onNext (step { idleWith [.host .undStart] with ports := ⟨0, 0, 3, 2⟩ }) (fun t =>
    t.und == { j := 0, n := 0, status := .err, err := .lengthMismatch } && t.mem == demoMem) = true := by decide
/-- T-H1: the ports after reset. -/
theorem test_reset_ports : State.reset.portRegister .decStatus = 0 ∧ State.reset.portRegister .decErr = 0 ∧
    State.reset.portRegister .decI = 0 ∧ State.reset.portRegister .decCount = 0 ∧ State.reset.portRegister .undStatus = 0 ∧
    State.reset.portRegister .undErr = 0 ∧ State.reset.portRegister .undJ = 0 := by decide
/-- T-H5: a reset during a run leaves `IN` alone and returns every register. -/
theorem test_reset_in_run : onNext (step (demo (decAt 2 5 5) UndRegs.reset [.host (.reset [.dec])])) (fun t =>
    t.dec == DecRegs.reset && t.und == UndRegs.reset && t.binding == Bindings.unbound &&
      t.mem.read 0 == some 0x03#8 && (t.mem.read 8).isSome) = true := by
  decide
/-- T-U2: borrow and sign corners. -/
theorem test_undiff_corners : undiff [0x00#8, 0x00#8, 0x7F#8, 0x80#8, 0x80#8, 0xFF#8, 0x00#8, 0xFF#8, 0x12#8]
    [0x00#8, 0x01#8, 0x80#8, 0x7F#8, 0x80#8, 0x00#8, 0x80#8, 0xFF#8, 0x34#8] =
    [0x00#8, 0xFF#8, 0xFF#8, 0x01#8, 0x00#8, 0xFF#8, 0x80#8, 0x00#8, 0xDE#8] := by decide
/-- A byte nobody has written is never zero: the step stops. -/
theorem test_unwritten_byte_faults :
    (match step { demo (decAt 0 0 5) UndRegs.reset [] with mem := [] } with | .fault .unwrittenByte => true | _ => false) = true := by
  decide
/-- The host's question, for one word of each row of the opcode table. -/
theorem test_placed_words : onNext (step (State.reset.withFetchWord 16 0x0105)) (fun t =>
    t.dec.i == 2 && t.dec.o == 5 && t.peek .out 4 == some 0x01#8) = true ∧
    onNext (step (State.reset.withFetchWord 8 0x82)) (fun t => t.dec.i == 3 && t.dec.o == 2) = true := by
  decide +kernel

/-! ### For every statement with hypotheses, a case that meets them (`test_meets_<statement>`) -/

theorem test_meets_EveryControlByteOpensOneRecordKind :
    1 + [0x00#8].length = recordLength 0x7F#8 ∧ 1 + ([] : List Byte).length = recordLength 0x80#8 := by decide

theorem test_meets_DecodeOfEncodeIsTheRecord :
    (Instr.repeatRun 127 0x00#8).wf = true ∧ (Instr.literalRun 1 [0x80#8]).wf = true := by decide

theorem test_meets_EncodeOfDecodeIsTheBytes :
    decodeRecord [0x00#8, 0x55#8, 0x80#8] = .ok (.repeatRun 0 0x55#8, [0x80#8]) := by decide

theorem test_meets_ParseAndAssembleAreInverse :
    (∀ r ∈ [Instr.repeatRun 0 0x09#8, .literalRun 0 []], r.wf = true) ∧ wellFormedStream [0x00#8, 0x09#8, 0x80#8] = true := by
  decide

theorem test_meets_ParseStopsAtTheTruncatedRecord : (parse [0x80#8, 0x81#8]).truncatedAt = some 1 := by decide

theorem test_meets_ExpandedLengthIsBounded :
    wellFormedStream [0x81#8, 0x05#8] = true ∧ 1 ≤ [0x81#8, 0x05#8].length ∧
      ∀ r ∈ (parse [0x81#8, 0x05#8]).records, ∃ n bs, r = .literalRun n bs := by
  refine ⟨by decide, by decide, fun r hr => ?_⟩
  have e : (parse [0x81#8, 0x05#8]).records = [.literalRun 1 [0x05#8]] := by decide
  rw [e] at hr
  exact ⟨1, [0x05#8], by simpa using hr⟩

/-- Both modes, each at an end of the count's range. -/
theorem test_meets_ControlByteSplitsIntoModeAndCount :
    decodeRecord (0x7F#8 :: [0xAA#8]) = .ok (.repeatRun 127 0xAA#8, []) ∧ controlMode 0x7F#8 = false ∧
      decodeRecord (0x80#8 :: [0x55#8]) = .ok (.literalRun 0 [], [0x55#8]) ∧ controlMode 0x80#8 = true := by decide

/-- All three clauses, each where it meets the next: one byte short, one byte too much, exact fit; `n = 127` and `n = 5`. -/
theorem test_meets_RepeatWritesItsValue :
    127 ≤ 127 ∧ (decAt 4 0 5).i + 2 > (decAt 4 0 5).len ∧
      ((decAt 3 1 5).i + 2 ≤ (decAt 3 1 5).len ∧ (decAt 3 1 5).o + 5 > (decAt 3 1 5).cap) ∧
      ((decAt 3 0 5).i + 2 ≤ (decAt 3 0 5).len ∧ (decAt 3 0 5).o + 5 ≤ (decAt 3 0 5).cap ∧
        (decAt 3 0 5).cap ≤ Buffer.sizeOf (demo (decAt 3 0 5) UndRegs.reset []).binding.out) := by decide

theorem test_meets_LiteralCopiesItsBytes :
    (2 ≤ 127 ∧ [0x01#8, 0x00#8].length = 2) ∧ (decAt 3 0 5).i + 1 + 2 > (decAt 3 0 5).len ∧
      ((decAt 2 4 5).i + 1 + 2 ≤ (decAt 2 4 5).len ∧ (decAt 2 4 5).o + 2 > (decAt 2 4 5).cap) ∧
      ((decAt 2 3 5).i + 1 + 2 ≤ (decAt 2 3 5).len ∧ (decAt 2 3 5).o + 2 ≤ (decAt 2 3 5).cap ∧
        (decAt 2 3 5).cap ≤ Buffer.sizeOf (demo (decAt 2 3 5) UndRegs.reset []).binding.out) := by decide

theorem test_meets_ZeroCountRecordsOnlyAdvance :
    (Instr.repeatRun 0 0x09#8).wf = true ∧ (Instr.repeatRun 0 0x09#8).count = 0 ∧
      (decAt 3 5 5).i + (Instr.repeatRun 0 0x09#8).length ≤ (decAt 3 5 5).len ∧ (decAt 3 5 5).o ≤ (decAt 3 5 5).cap := by decide

/-- Both cases of the frame: a record that completes and one that raises. -/
theorem test_meets_RecordFrame :
    (Instr.repeatRun 1 0x07#8).wf = true ∧
      (∃ t, exec (.repeatRun 1 0x07#8) (demo (decAt 0 0 5) UndRegs.reset []) = .next t) ∧
      ∃ t, exec (.repeatRun 1 0x07#8) (demo (decAt 0 5 5) UndRegs.reset []) = .next t :=
  ⟨by decide, ⟨_, rfl⟩, ⟨_, rfl⟩⟩

theorem test_meets_RecordsNeverStopAConformingMachine :
    (Instr.literalRun 0 []).wf = true ∧
      (decAt 0 0 5).cap ≤ Buffer.sizeOf (demo (decAt 0 0 5) UndRegs.reset []).binding.out := by decide

/-- A listed move and the free run, the second also with the delta unit in `RUN`. -/
theorem test_meets_StepRunsTheDecodedRecord :
    (demo (decAt 2 3 5) UndRegs.reset [.dec]).turns = .dec :: [] ∧ (demo (decAt 2 3 5) (undAt 1) []).turns = [] ∧
      (decAt 2 3 5).status = .run ∧
      (demo (decAt 2 3 5) UndRegs.reset [.dec]).Holds .inp 2 [0x82#8, 0x01#8, 0x00#8] ∧
      1 + [0x01#8, 0x00#8].length = recordLength 0x82#8 ∧ (decAt 2 3 5).i + recordLength 0x82#8 ≤ (decAt 2 3 5).len ∧
      decodeRecord [0x82#8, 0x01#8, 0x00#8] = .ok (.literalRun 2 [0x01#8, 0x00#8], []) :=
  ⟨rfl, rfl, rfl, ⟨by decide, by decide, by decide, trivial⟩, by decide, by decide, by decide⟩

/-- The three clauses: the stream cut after the control byte, a capacity one short, and room enough. -/
theorem test_meets_DecoderStepOnARepeatRecord :
    ((demo (decAt 0 0 5) UndRegs.reset []).turns = [] ∧ (demo (decAt 0 0 5) UndRegs.reset []).und.status ≠ .run) ∧
      (decAt 0 0 5).status = .run ∧ (decAt 0 0 5).i < (decAt 0 0 5).len ∧ (0x03#8 : Byte).toNat < 128 ∧
      (demo (decAt 0 0 5) UndRegs.reset []).peek .inp 0 = some 0x03#8 ∧
      ({ decAt 0 0 5 with len := 1 } : DecRegs).i + 2 > ({ decAt 0 0 5 with len := 1 } : DecRegs).len ∧
      (0 < 1 ∧ (decAt 0 0 2).i + 2 ≤ (decAt 0 0 2).len ∧ (decAt 0 0 2).o + (0x03#8 : Byte).toNat > (decAt 0 0 2).cap) ∧
      ((decAt 0 0 3).o + (0x03#8 : Byte).toNat ≤ (decAt 0 0 3).cap ∧
        (demo (decAt 0 0 3) UndRegs.reset []).peek .inp (0 + 1) = some 0x00#8 ∧
        (decAt 0 0 3).cap ≤ Buffer.sizeOf (demo (decAt 0 0 3) UndRegs.reset []).binding.out) := by decide

theorem test_meets_DecoderStepOnALiteralRecord :
    ((demo (decAt 2 3 5) (undAt 1) [.dec]).turns = .dec :: [] ∧ (demo (decAt 2 3 5) UndRegs.reset []).und.status ≠ .run) ∧
      (decAt 2 3 5).status = .run ∧ (decAt 2 3 5).i < (decAt 2 3 5).len ∧ 2 ≤ 127 ∧
      (demo (decAt 2 3 5) UndRegs.reset []).peek .inp 2 = some (BitVec.ofNat 8 (128 + 2)) ∧
      ({ decAt 2 3 5 with len := 4 } : DecRegs).i + 1 + 2 > ({ decAt 2 3 5 with len := 4 } : DecRegs).len ∧
      ((decAt 2 3 4).i + 1 + 2 ≤ (decAt 2 3 4).len ∧ (decAt 2 3 4).o + 2 > (decAt 2 3 4).cap) ∧
      ((decAt 2 3 5).o + 2 ≤ (decAt 2 3 5).cap ∧ [0x01#8, 0x00#8].length = 2 ∧
        (demo (decAt 2 3 5) UndRegs.reset []).Holds .inp (2 + 1) [0x01#8, 0x00#8] ∧
        (decAt 2 3 5).cap ≤ Buffer.sizeOf (demo (decAt 2 3 5) UndRegs.reset []).binding.out) :=
  ⟨by decide, by decide, by decide, by decide, by decide, by decide, by decide, by decide, by decide,
    ⟨by decide, by decide, trivial⟩, by decide⟩

/-- One step that raises each of the two errors. -/
theorem test_meets_RaisedErrorsHaveTheirCause :
    (∃ t, decStep (demo (decAt 2 3 4) UndRegs.reset []) = .next t ∧ t.dec.status = .err ∧ t.dec.err = .outputOverflow) ∧
      (∃ t, decStep (demo { decAt 2 3 5 with len := 4 } UndRegs.reset []) = .next t ∧ t.dec.status = .err ∧
        t.dec.err = .truncatedInput) ∧ (decAt 2 3 4).status = .run ∧ (decAt 2 3 4).o ≤ (decAt 2 3 4).cap :=
  ⟨⟨_, rfl, rfl, rfl⟩, ⟨_, rfl, rfl, rfl⟩, rfl, by decide⟩

/-- The end of P1, and the empty stream (T-Z1). -/
theorem test_meets_EndOfScanWritesDone :
    ((demo (decAt 5 5 5) UndRegs.reset [.dec]).turns = .dec :: [] ∧ (decAt 5 5 5).status = .run ∧ (decAt 5 5 5).i = (decAt 5 5 5).len) ∧
      ((demo (decAt 5 5 5) UndRegs.reset []).turns = [] ∧ (demo (decAt 5 5 5) UndRegs.reset []).und.status ≠ .run) ∧
      ({ decAt 0 0 0 with len := 0 } : DecRegs).i = ({ decAt 0 0 0 with len := 0 } : DecRegs).len := by decide

theorem test_meets_NothingMovesOutsideRun :
    (idleWith [.dec]).dec.status ≠ .run ∧ (idleWith [.dec]).turns = .dec :: [] ∧ (idleWith [.und]).und.status ≠ .run ∧
      (idleWith [.und]).turns = .und :: [] ∧ (idleWith []).turns = [] := by decide

theorem test_meets_UndiffReplacesOneElement :
    ((demo DecRegs.reset (undAt 2) [.und]).turns = .und :: [] ∧ (undAt 2).status = .run ∧ (undAt 2).j < (undAt 2).n ∧
      (demo DecRegs.reset (undAt 2) []).peek .base 2 = some 0xC8#8 ∧ (demo DecRegs.reset (undAt 2) []).peek .enc 2 = some 0xFA#8) ∧
      (undAt 3).j = (undAt 3).n ∧ (demo DecRegs.reset (undAt 3) []).dec.status ≠ .run := by decide

theorem test_meets_EndOfReversalWritesDone :
    (demo DecRegs.reset (undAt 3) [.und]).turns = .und :: [] ∧ (undAt 3).status = .run ∧ (undAt 3).j = (undAt 3).n := by decide

theorem test_meets_ByteSubtractionWraps :
    (0x00#8 : Byte).toNat ≤ (0x00#8 : Byte).toNat ∧ (0x00#8 : Byte).toNat < (0x01#8 : Byte).toNat := by decide

theorem test_meets_ReversalIsSelfInverse : [0x07#8, 0xC8#8].length = [0xFE#8, 0x64#8].length := by decide

/-- Both clauses: a start in `RUN`, and a conforming start from `IDLE`, from `DONE` and from `ERR`. -/
theorem test_meets_DecStartBeginsADecode :
    (demo (decAt 0 0 5) UndRegs.reset [.host .decStart]).dec.status = .run ∧
      ((idleWith [.host .decStart]).turns = .host .decStart :: [] ∧ (idleWith [.host .decStart]).dec.status ≠ .run ∧
        (idleWith []).ports.decLen ≤ Buffer.sizeOf (idleWith []).binding.inp ∧
        (idleWith []).ports.decCap ≤ Buffer.sizeOf (idleWith []).binding.out ∧
        Buffer.overlap (idleWith []).binding.inp (idleWith []).binding.out = false ∧ (idleWith []).unitsCollide = false) ∧
      Status.done ≠ .run ∧ Status.err ≠ .run := by decide

theorem test_meets_StartDuringRunIsLost :
    ((demo (decAt 2 3 5) UndRegs.reset [.host .decStart]).turns = .host .decStart :: [] ∧ (decAt 2 3 5).status = .run) ∧
      ((demo DecRegs.reset (undAt 1) [.host .undStart]).turns = .host .undStart :: [] ∧ (undAt 1).status = .run) := by decide

/-- All three clauses: in `RUN`, unequal lengths, a conforming start. -/
theorem test_meets_UndStartComparesTheLengths :
    (demo DecRegs.reset (undAt 0) [.host .undStart]).und.status = .run ∧
      ({ idleWith [.host .undStart] with ports := ⟨0, 0, 3, 2⟩ } : State).ports.undBlen ≠
        ({ idleWith [.host .undStart] with ports := ⟨0, 0, 3, 2⟩ } : State).ports.undElen ∧
      ((idleWith [.host .undStart]).turns = .host .undStart :: [] ∧ (idleWith []).und.status ≠ .run ∧
        (idleWith []).ports.undBlen = (idleWith []).ports.undElen ∧
        (idleWith []).ports.undBlen ≤ Buffer.sizeOf (idleWith []).binding.base ∧
        (idleWith []).ports.undElen ≤ Buffer.sizeOf (idleWith []).binding.enc ∧
        Buffer.overlap (idleWith []).binding.base (idleWith []).binding.enc = false ∧ (idleWith []).unitsCollide = false) := by
  decide

/-- The two units' buffers collide, while the numbers are true and each unit's own buffers are apart: `OUT` on the window that
is bound to `ENC`. -/
def colliding (dec : DecRegs) (und : UndRegs) (turns : List Turn) : State :=
  { demo dec und turns with binding := { demoBinding with out := some ⟨24, 5⟩ }, undHeld := true }

/-- R209, R150: with the delta unit in `RUN` a colliding `DEC.START` is refused; with its `LengthMismatch` unread it begins a
decode. -/
theorem test_colliding_start :
    (match step (colliding DecRegs.reset (undAt 1) [.host .decStart]) with
      | .refused .overlappingBuffers => true | _ => false) = true ∧
    onNext (step (colliding DecRegs.reset { UndRegs.reset with status := .err, err := .lengthMismatch } [.host .decStart]))
      (fun t => t.dec == decAt 0 0 5) = true := by decide

/-- A capacity one larger than the buffer, buffers that share one byte, and the buffers of the other unit, in `RUN`, in the way. -/
theorem test_meets_LaunchesOutsideTheSpecAreRefused :
    (idleWith [.host .decStart]).turns = .host .decStart :: [] ∧ (idleWith []).dec.status ≠ .run ∧
      (idleWith []).und.status ≠ .run ∧ (idleWith []).ports.undBlen = (idleWith []).ports.undElen ∧
      Buffer.sizeOf (some ⟨8, 5⟩) < 6 ∧ Buffer.overlap (some ⟨0, 5⟩) (some ⟨4, 5⟩) = true ∧
      Buffer.overlap (some ⟨0, 5⟩) (some ⟨5, 5⟩) = false ∧ Buffer.overlap (some ⟨0, 5⟩) (some ⟨2, 0⟩) = false ∧
      ((colliding DecRegs.reset (undAt 1) [.host .decStart]).turns = .host .decStart :: [] ∧
        (colliding DecRegs.reset (undAt 1) []).dec.status ≠ .run ∧
        (colliding DecRegs.reset (undAt 1) []).ports.decLen ≤ Buffer.sizeOf (colliding DecRegs.reset (undAt 1) []).binding.inp ∧
        (colliding DecRegs.reset (undAt 1) []).ports.decCap ≤ Buffer.sizeOf (colliding DecRegs.reset (undAt 1) []).binding.out ∧
        Buffer.overlap (colliding DecRegs.reset (undAt 1) []).binding.inp
          (colliding DecRegs.reset (undAt 1) []).binding.out = false ∧
        (colliding DecRegs.reset (undAt 1) []).und.status = .run ∧
        (colliding DecRegs.reset (undAt 1) []).unitsCollide = true) ∧
      ((colliding (decAt 0 0 5) UndRegs.reset [.host .undStart]).turns = .host .undStart :: [] ∧
        (colliding (decAt 0 0 5) UndRegs.reset []).und.status ≠ .run ∧
        (colliding (decAt 0 0 5) UndRegs.reset []).ports.undBlen = (colliding (decAt 0 0 5) UndRegs.reset []).ports.undElen ∧
        (colliding (decAt 0 0 5) UndRegs.reset []).ports.undBlen ≤
          Buffer.sizeOf (colliding (decAt 0 0 5) UndRegs.reset []).binding.base ∧
        (colliding (decAt 0 0 5) UndRegs.reset []).ports.undElen ≤
          Buffer.sizeOf (colliding (decAt 0 0 5) UndRegs.reset []).binding.enc ∧
        Buffer.overlap (colliding (decAt 0 0 5) UndRegs.reset []).binding.base
          (colliding (decAt 0 0 5) UndRegs.reset []).binding.enc = false ∧
        (colliding (decAt 0 0 5) UndRegs.reset []).dec.status = .run ∧
        (colliding (decAt 0 0 5) UndRegs.reset []).unitsCollide = true) := by
  decide

theorem test_meets_HeldBuffersAreRefusedToTheHost :
    (demo (decAt 0 0 5) UndRegs.reset []).spaceHeld .out = true ∧
      (demo (decAt 0 0 5) UndRegs.reset []).address .out 4 = some 12 ∧
      (demo (decAt 0 0 5) UndRegs.reset [.host (.write 12 0x00#8)]).turns = .host (.write 12 0x00#8) :: [] ∧
      (demo (decAt 0 0 5) UndRegs.reset [.host (.read 12)]).turns = .host (.read 12) :: [] ∧
      (demo (decAt 0 0 5) UndRegs.reset [.host (.bind .out none)]).turns = .host (.bind .out none) :: [] := by decide

/-- An address just past the held output buffer. -/
theorem test_meets_HostReadsBackWhatItWrote :
    (demo (decAt 0 0 5) UndRegs.reset []).addressHeld 13 = false ∧
      (idleWith [.host (.write 13 0x05#8), .host (.read 13)]).turns = .host (.write 13 0x05#8) :: .host (.read 13) :: [] := by
  decide

theorem test_meets_PortReadsHaveNoSideEffect :
    (idleWith [.host (.readPort .decI)]).turns = .host (.readPort .decI) :: [] ∧ (idleWith []).dec.status ≠ .run ∧
      (idleWith []).und.status ≠ .run := by decide

theorem test_meets_DrivingAPortChangesOnlyThePort :
    (demo (decAt 0 0 5) UndRegs.reset [.host (.drive .decLen 0)]).turns = .host (.drive .decLen 0) :: [] := by decide

/-- A reset while both units run: the last index of each written buffer has an address. -/
theorem test_meets_ResetOverridesEverything :
    (demo (decAt 2 3 5) (undAt 1) [.host (.reset [])]).turns = .host (.reset []) :: [] ∧ (decAt 2 3 5).status = .run ∧
      (undAt 1).status = .run ∧ (demo (decAt 2 3 5) (undAt 1) []).address .out 4 = some 12 ∧
      (demo (decAt 2 3 5) (undAt 1) []).address .enc 2 = some 26 := by decide

/-- Both units running, conforming: the invariant holds away from reset. -/
theorem test_demo_satisfies_the_invariant : (demo (decAt 2 3 5) (undAt 1) []).Inv where
  memWf := by show Memory.wf demoMem; decide
  dec := by constructor <;> decide
  und := by constructor <;> decide
  decLaunched := fun _ => ⟨by decide, by decide, by decide⟩
  undLaunched := fun _ => ⟨by decide, by decide, by decide⟩
  decHeld := fun _ => rfl
  undHeld := fun _ => rfl
  unitsApart := fun _ _ => by decide

theorem test_meets_EveryStepKeepsTheInvariant :
    (demo (decAt 2 3 5) (undAt 1) []).Inv ∧ ∃ t, step (demo (decAt 2 3 5) (undAt 1) []) = .next t :=
  ⟨test_demo_satisfies_the_invariant, _, rfl⟩

/-- At the least width the demo fits, 3 bits: 5 is below 8. -/
theorem test_meets_IndicesNeverOutgrowTheirWidth :
    (demo (decAt 2 3 5) (undAt 1) [.host (.drive .decLen 7), .dec]).FitsWidth 3 ∧
      ∃ t, step (demo (decAt 2 3 5) (undAt 1) [.host (.drive .decLen 7), .dec]) = .next t := by
  refine ⟨⟨by decide, by decide, by decide, by decide, by decide, by decide, by decide, by decide, by decide, by decide,
    fun t ht => ?_⟩, _, rfl⟩
  have ht : t ∈ [Turn.host (.drive .decLen 7), .dec] := ht
  simp only [List.mem_cons, List.not_mem_nil, or_false] at ht
  rcases ht with rfl | rfl
  · show 7 < 2 ^ 3
    decide
  · trivial

theorem test_meets_ResultsAreSticky :
    (idleWith [.dec]).dec.status ≠ .run ∧ (idleWith [.dec]).und.status ≠ .run ∧ (∃ t, step (idleWith [.dec]) = .next t) ∧
      (∀ rest, (idleWith [.dec]).turns ≠ .host .decStart :: rest) ∧ (∀ rest, (idleWith [.dec]).turns ≠ .host .undStart :: rest) ∧
      ∀ l rest, (idleWith [.dec]).turns ≠ .host (.reset l) :: rest := by
  refine ⟨by decide, by decide, ⟨_, rfl⟩, ?_, ?_, ?_⟩ <;> simp [idleWith, demo]

theorem test_meets_UnitsNeverWriteWhatTheyOnlyRead :
    (demo (decAt 2 3 5) (undAt 1) []).Inv ∧ (∃ t, decStep (demo (decAt 2 3 5) (undAt 1) []) = .next t) ∧
      ∃ t, undStep (demo (decAt 2 3 5) (undAt 1) []) = .next t :=
  ⟨test_demo_satisfies_the_invariant, ⟨_, rfl⟩, ⟨_, rfl⟩⟩

theorem test_meets_OutputIsAppendOnly :
    (decAt 0 0 5).o ≤ (decAt 0 0 5).cap ∧ ∃ t, decStep (demo (decAt 0 0 5) UndRegs.reset []) = .next t :=
  ⟨by decide, _, rfl⟩

theorem test_meets_ScanOnlyMovesForward :
    (decAt 5 5 5).status = .run ∧ (∃ t, decStep (demo (decAt 5 5 5) UndRegs.reset []) = .next t) ∧
      ∃ t, decStep (demo (decAt 0 0 5) UndRegs.reset []) = .next t := ⟨rfl, ⟨_, rfl⟩, ⟨_, rfl⟩⟩

theorem test_meets_RunningUnitsAlwaysStep :
    (demo (decAt 2 3 5) (undAt 1) []).Inv ∧
      (∀ k < 5, ∃ b, (demo (decAt 2 3 5) (undAt 1) []).peek .inp k = some b) ∧
      ∀ k < 3, (∃ b, (demo (decAt 2 3 5) (undAt 1) []).peek .base k = some b) ∧
        ∃ e, (demo (decAt 2 3 5) (undAt 1) []).peek .enc k = some e := by
  refine ⟨test_demo_satisfies_the_invariant, fun k hk => ?_, fun k hk => ⟨?_, ?_⟩⟩
  · have : ∀ k < 5, ((demo (decAt 2 3 5) (undAt 1) []).peek .inp k).isSome = true := by decide
    exact Option.isSome_iff_exists.1 (this k hk)
  · have : ∀ k < 3, ((demo (decAt 2 3 5) (undAt 1) []).peek .base k).isSome = true := by decide
    exact Option.isSome_iff_exists.1 (this k hk)
  · have : ∀ k < 3, ((demo (decAt 2 3 5) (undAt 1) []).peek .enc k).isSome = true := by decide
    exact Option.isSome_iff_exists.1 (this k hk)

theorem test_meets_UnitStepsCommute :
    (demo (decAt 2 3 5) (undAt 1) []).Inv ∧ (decAt 2 3 5).status = .run ∧ (undAt 1).status = .run ∧
      ∃ a b, decStep (demo (decAt 2 3 5) (undAt 1) []) = .next a ∧ undStep a = .next b :=
  ⟨test_demo_satisfies_the_invariant, rfl, rfl, _, _, rfl, rfl⟩

/-- P1 from its start command. -/
theorem test_meets_DecoderComputesDecode :
    (demo (decAt 0 0 5) UndRegs.reset []).turns = [] ∧
      (demo (decAt 0 0 5) UndRegs.reset []).dec =
        { i := 0, o := 0, len := [0x03#8, 0x00#8, 0x82#8, 0x01#8, 0x00#8].length, cap := 5, status := .run, err := .none } ∧
      (demo (decAt 0 0 5) UndRegs.reset []).DecLaunched ∧
      (demo (decAt 0 0 5) UndRegs.reset []).Holds .inp 0 [0x03#8, 0x00#8, 0x82#8, 0x01#8, 0x00#8] :=
  ⟨rfl, rfl, ⟨by decide, by decide, by decide⟩, by decide, by decide, by decide, by decide, by decide, trivial⟩

/-- T-U1 from its start command. -/
theorem test_meets_DeltaUnitComputesUndiff :
    (demo DecRegs.reset (undAt 0) []).turns = [] ∧ (demo DecRegs.reset (undAt 0) []).dec.status ≠ .run ∧
      [0x0A#8, 0x00#8, 0xC8#8].length = [0x03#8, 0x01#8, 0xFA#8].length ∧
      (demo DecRegs.reset (undAt 0) []).und =
        { j := 0, n := [0x03#8, 0x01#8, 0xFA#8].length, status := .run, err := .none } ∧
      (demo DecRegs.reset (undAt 0) []).UndLaunched ∧
      (demo DecRegs.reset (undAt 0) []).Holds .base 0 [0x0A#8, 0x00#8, 0xC8#8] ∧
      (demo DecRegs.reset (undAt 0) []).Holds .enc 0 [0x03#8, 0x01#8, 0xFA#8] :=
  ⟨rfl, by decide, rfl, rfl, ⟨by decide, by decide, by decide⟩, ⟨by decide, by decide, by decide, trivial⟩,
    by decide, by decide, by decide, trivial⟩

theorem test_meets_DecodeOutcomeFollowsFromTheParse :
    expandedLength (parse [0x05#8, 0x01#8]).records ≤ 5 ∧ 4 < expandedLength (parse [0x05#8, 0x01#8]).records := by decide

theorem test_meets_MoreCapacityChangesNoOtherOutcome :
    decodeStream [0x05#8, 0x01#8] 5 = .done (List.replicate 5 0x01#8) ∧
      decodeStream [0x02#8, 0x11#8, 0x81#8] 2 = .failed .truncatedInput 2 [0x11#8, 0x11#8] ∧ 5 ≤ 6 ∧ 2 ≤ 3 := by decide

theorem test_meets_DecodeOfAConcatenation :
    wellFormedStream [0x02#8, 0x09#8] = true ∧ expandedLength (parse [0x02#8, 0x09#8]).records ≤ 2 := by decide

theorem test_meets_NoOperationRecordsChangeNoOutput : wellFormedStream [0x02#8, 0x09#8] = true := by decide

theorem test_meets_OneByteShortOverflowsAtTheLastOutput :
    wellFormedStream [0x02#8, 0x09#8, 0x80#8] = true ∧ 1 ≤ expandedLength (parse [0x02#8, 0x09#8, 0x80#8]).records := by decide

/-- The decode of P1 has ended with five bytes; a base of five bytes and one of six. -/
def chained (k : Nat) : State :=
  demo { decAt 5 5 5 with status := .done } UndRegs.reset
    [.host (.readPort .decStatus), .host (.bind .base (some ⟨32, k⟩)), .host (.bind .enc (some ⟨8, 5⟩)),
      .host (.drive .undBlen k), .host (.drive .undElen 5), .host .undStart]

theorem test_meets_ChainedUseStartsTheReversal :
    (chained 5).dec.status = .done ∧ (chained 5).und.status ≠ .run ∧ (chained 5).undHeld = false ∧
      (chained 5).binding.out = some ⟨8, 5⟩ ∧ (chained 5).dec.o ≤ 5 ∧ Buffer.overlap (some ⟨32, 5⟩) (some ⟨8, 5⟩) = false ∧
      Buffer.overlap (some ⟨32, 6⟩) (some ⟨8, 5⟩) = false ∧ (chained 5).dec.o = 5 ∧
      (chained 6).turns = .host (.readPort .decStatus) :: .host (.bind .base (some ⟨32, 6⟩)) ::
        .host (.bind .enc (some ⟨8, 5⟩)) :: .host (.drive .undBlen 6) :: .host (.drive .undElen (chained 6).dec.o) ::
        .host .undStart :: [] := by decide

/-- Both units in `RUN`, and the delta unit alone. -/
theorem test_meets_NoMovesListedIsTheDecodersTurnFirst :
    ((demo (decAt 2 3 5) (undAt 1) []).turns = [] ∧ (demo (decAt 2 3 5) (undAt 1) []).dec.status = .run ∧
      (demo (decAt 2 3 5) (undAt 1) []).und.status = .run) ∧
      ((demo DecRegs.reset (undAt 1) []).turns = [] ∧ (demo DecRegs.reset (undAt 1) []).dec.status ≠ .run ∧
        (demo DecRegs.reset (undAt 1) []).und.status = .run) := by decide

end Sys2Proof.Tests
end

section
/-! PROOFS of 00_scope: who moves when no move is listed (R18, R19; log entry 4), and that indices never outgrow their
width (R8, R11, R25; log entry 1). The inversion lemmas of the moves serve other families too. -/

namespace Sys2Proof.Machine

variable {s t : State} {w : Nat}

/-! ### Who moves next -/

/-- The unit whose turn it is when no move is listed (log entry 4). -/
def State.freeTurn (s : State) : Turn := if s.dec.status = .run then .dec else .und

theorem State.freeTurn_of_dec_run (h : s.dec.status = .run) : s.freeTurn = .dec := if_pos h

theorem State.freeTurn_of_dec_not_run (h : s.dec.status ≠ .run) : s.freeTurn = .und := if_neg h

/-- A free run is a turn given to one of the two units; with neither in `RUN` that turn passes. -/
theorem freeRun_eq_takeTurn (s : State) : freeRun s = takeTurn s.freeTurn s := by
  by_cases hd : s.dec.status = .run
  · rw [State.freeTurn_of_dec_run hd]
    simp only [freeRun, takeTurn, if_pos hd]
  · rw [State.freeTurn_of_dec_not_run hd]
    simp only [freeRun, takeTurn, if_neg hd]

/-- With no move listed, a step is the step with the free turn listed. -/
theorem step_eq_step_freeTurn (h : s.turns = []) : step s = step { s with turns := [s.freeTurn] } := by
  rw [step_of_no_turn h, step_of_turn rfl, freeRun_eq_takeTurn]
  rw [show ({ s with turns := [] } : State) = s by rw [← h]]

/-- Settles O53: the free turn is the decoder's exactly when that is in `RUN`. -/
theorem noMovesListedIsTheDecodersTurnFirst : Obligations.NoMovesListedIsTheDecodersTurnFirst := by
  intro s hs
  refine ⟨fun hd => ?_, fun hd _ => ?_⟩
  · rw [step_eq_step_freeTurn hs, State.freeTurn_of_dec_run hd]
  · rw [step_eq_step_freeTurn hs, State.freeTurn_of_dec_not_run hd]

/-! ### What each move can do when it answers a next state -/

theorem takeTurn_dec_cases (h : takeTurn .dec s = .next t) :
    (s.dec.status = .run ∧ decStep s = .next t) ∨ (s.dec.status ≠ .run ∧ t = s) := by
  simp only [takeTurn] at h
  split at h
  · exact .inl ⟨‹_›, h⟩
  · exact .inr ⟨‹_›, (Host.Outcome.next.inj h).symm⟩

theorem takeTurn_und_cases (h : takeTurn .und s = .next t) :
    (s.und.status = .run ∧ undStep s = .next t) ∨ (s.und.status ≠ .run ∧ t = s) := by
  simp only [takeTurn] at h
  split at h
  · exact .inl ⟨‹_›, h⟩
  · exact .inr ⟨‹_›, (Host.Outcome.next.inj h).symm⟩

/-- The decoder ends its scan or runs a record (R100, R102). -/
theorem decStep_cases (h : decStep s = .next t) :
    (s.dec.i = s.dec.len ∧ t = { s with dec := { s.dec with status := .done } }) ∨
      (s.dec.i ≠ s.dec.len ∧ decRecord s = .next t) := by
  unfold decStep at h
  split at h
  · exact .inl ⟨‹_›, (Host.Outcome.next.inj h).symm⟩
  · exact .inr ⟨‹_›, h⟩

/-- The delta unit ends or reverses an element (R131, R133). -/
theorem undStep_cases (h : undStep s = .next t) :
    (s.und.j = s.und.n ∧ t = { s with und := { s.und with status := .done } }) ∨
      (s.und.j ≠ s.und.n ∧ undElement s = .next t) := by
  unfold undStep at h
  split at h
  · exact .inl ⟨‹_›, (Host.Outcome.next.inj h).symm⟩
  · exact .inr ⟨‹_›, h⟩

/-- `DEC.START` is ignored or begins an invocation (R150, R151). -/
theorem decStart_cases (h : decStart s = .next t) :
    (s.dec.status = .run ∧ t = s) ∨
      (s.dec.status ≠ .run ∧ s.decLaunchProblem = none ∧
        t = { s with
          dec := { i := 0, o := 0, len := s.ports.decLen, cap := s.ports.decCap, status := .run, err := .none }
          decHeld := true }) := by
  unfold decStart at h
  split at h
  · exact .inl ⟨‹_›, (Host.Outcome.next.inj h).symm⟩
  · cases hp : s.decLaunchProblem with
    | some r => simp [hp] at h
    | none =>
      simp only [hp, Host.Outcome.next.injEq] at h
      exact .inr ⟨‹_›, rfl, h.symm⟩

/-- `UND.START` is ignored, raises `LengthMismatch` or begins an invocation (R155, R156, R173). -/
theorem undStart_cases (h : undStart s = .next t) :
    (s.und.status = .run ∧ t = s) ∨
      (s.und.status ≠ .run ∧ s.ports.undBlen ≠ s.ports.undElen ∧
        t = { s with und := { j := 0, n := 0, status := .err, err := .lengthMismatch }, undHeld := true }) ∨
      (s.und.status ≠ .run ∧ s.ports.undBlen = s.ports.undElen ∧ s.undLaunchProblem = none ∧
        t = { s with und := { j := 0, n := s.ports.undBlen, status := .run, err := .none }, undHeld := true }) := by
  unfold undStart at h
  split at h
  · exact .inl ⟨‹_›, (Host.Outcome.next.inj h).symm⟩
  · split at h
    · exact .inr (.inl ⟨‹_›, ‹_›, (Host.Outcome.next.inj h).symm⟩)
    · cases hp : s.undLaunchProblem with
      | some r => simp [hp] at h
      | none =>
        simp only [hp, Host.Outcome.next.injEq] at h
        exact .inr (.inr ⟨‹_›, not_not.1 ‹_›, rfl, h.symm⟩)

/-- A port read shows the register of a defined port, or a free value (R35, R152). -/
theorem doReadPort_cases {p : OutPort} (h : doReadPort p s = .next t) :
    (s.portDefined p = true ∧ t = { s.release p with seen := s.portRegister p :: s.seen }) ∨
      (s.portDefined p = false ∧ t = { s with seen := freePort p s.free :: s.seen, free := s.free + 1 }) := by
  unfold doReadPort at h
  split at h
  · exact .inl ⟨‹_›, (Host.Outcome.next.inj h).symm⟩
  · exact .inr ⟨eq_false_of_ne_true ‹_›, (Host.Outcome.next.inj h).symm⟩

theorem doBind_eq_next {sp : Space} {b : Option Buffer} :
    doBind sp b s = .next t ↔ s.spaceHeld sp = false ∧ t = { s with binding := s.binding.set b sp } := by
  cases hh : s.spaceHeld sp with
  | true => simp [doBind, hh]
  | false =>
    simp only [doBind, hh, Bool.false_eq_true, if_false, Host.Outcome.next.injEq, true_and]
    exact eq_comm

theorem doWrite_eq_next {a : Nat} {b : Byte} :
    doWrite a b s = .next t ↔ s.addressHeld a = false ∧ t = { s with mem := s.mem.write a b } := by
  cases hh : s.addressHeld a with
  | true => simp [doWrite, hh]
  | false =>
    simp only [doWrite, hh, Bool.false_eq_true, if_false, Host.Outcome.next.injEq, true_and]
    exact eq_comm

theorem doRead_eq_next {a : Nat} :
    doRead a s = .next t ↔
      s.addressHeld a = false ∧ ∃ b, s.mem.read a = some b ∧ t = { s with seen := b.toNat :: s.seen } := by
  cases hh : s.addressHeld a with
  | true => simp [doRead, hh]
  | false =>
    cases hm : s.mem.read a with
    | none => simp [doRead, hh, hm]
    | some b =>
      simp only [doRead, hh, hm, Bool.false_eq_true, if_false, Host.Outcome.next.injEq, true_and, Option.some.injEq,
        exists_eq_left']
      exact eq_comm

/-! ### What a reset leaves as it was -/

/-- The unspecified bytes a reset leaves are in memory only (R201). -/
theorem State.scrambleOut_eq (s : State) : ∃ m f, s.scrambleOut = { s with mem := m, free := f } := by
  unfold State.scrambleOut
  split
  · exact (s.scramble_spec .out s.dec.cap).1
  · exact ⟨s.mem, s.free, rfl⟩

theorem State.scrambleEnc_eq (s : State) : ∃ m f, s.scrambleEnc = { s with mem := m, free := f } := by
  unfold State.scrambleEnc
  split
  · exact (s.scramble_spec .enc s.und.n).1
  · exact ⟨s.mem, s.free, rfl⟩

/-- A reset sets registers, bindings and hand-over bits; but for memory and the free values used, the rest
stays (R39, R200). -/
theorem State.resetUnits_eq (s : State) :
    ∃ m f, s.resetUnits =
      { s with
        dec := DecRegs.reset, und := UndRegs.reset, binding := Bindings.unbound, decHeld := false, undHeld := false,
        mem := m, free := f } := by
  obtain ⟨m, f, ho⟩ := s.scrambleOut_eq
  obtain ⟨m', f', he⟩ := s.scrambleOut.scrambleEnc_eq
  exact ⟨m', f', by rw [State.resetUnits, he, ho]⟩

/-! ### Widths -/

/-- Whether the numbers of a state fit depends on its registers, ports and moves alone. -/
theorem State.FitsWidth.congr (hs : s.FitsWidth w) (hd : t.dec = s.dec) (hu : t.und = s.und) (hp : t.ports = s.ports)
    (ht : t.turns = s.turns) : t.FitsWidth w := by
  obtain ⟨h1, h2, h3, h4, h5, h6, h7, h8, h9, h10, h11⟩ := hs
  constructor <;> simpa only [hd, hu, hp, ht]

/-- The checks of a record come before its index updates, so the sums they leave are at most `LEN` and `CAP`
(R25, R175). -/
theorem decStep_fitsWidth (hs : s.FitsWidth w) (h : decStep s = .next t) : t.FitsWidth w := by
  rcases decStep_cases h with ⟨_, rfl⟩ | ⟨_, h⟩
  · exact { hs with }
  · obtain ⟨c, _, _, ⟨rfl, _⟩ | ⟨rfl, _⟩ | ⟨_, _, m, _, _, _, rfl, hi, ho, _⟩⟩ := decRecord_cases h
    · exact { hs with }
    · exact { hs with }
    · exact { hs with decI := hi.trans_lt hs.decLen, decO := ho.trans_lt hs.decCap }

/-- An element below `N` is reversed only, so `J + 1` is at most `N` (R131). -/
theorem undStep_fitsWidth (hs : s.FitsWidth w) (h : undStep s = .next t) : t.FitsWidth w := by
  rcases undStep_cases h with ⟨_, rfl⟩ | ⟨_, h⟩
  · exact { hs with }
  · obtain ⟨_, _, _, hj, _, _, _, rfl⟩ := undElement_cases h
    exact { hs with undJ := (Nat.succ_le_of_lt hj).trans_lt hs.undN }

/-- A start samples its lengths from the ports (R150). -/
theorem decStart_fitsWidth (hs : s.FitsWidth w) (h : decStart s = .next t) : t.FitsWidth w := by
  rcases decStart_cases h with ⟨_, rfl⟩ | ⟨_, _, rfl⟩
  · exact hs
  · exact { hs with decI := w.two_pow_pos, decO := w.two_pow_pos, decLen := hs.decLenIn, decCap := hs.decCapIn }

/-- The same for the delta unit (R155, R173). -/
theorem undStart_fitsWidth (hs : s.FitsWidth w) (h : undStart s = .next t) : t.FitsWidth w := by
  rcases undStart_cases h with ⟨_, rfl⟩ | ⟨_, _, rfl⟩ | ⟨_, _, _, rfl⟩
  · exact hs
  · exact { hs with undJ := w.two_pow_pos, undN := w.two_pow_pos }
  · exact { hs with undJ := w.two_pow_pos, undN := hs.undBlenIn }

theorem State.resetUnits_fitsWidth (hs : s.FitsWidth w) : s.resetUnits.FitsWidth w := by
  obtain ⟨m, f, e⟩ := s.resetUnits_eq
  rw [e]
  exact { hs with
    decI := w.two_pow_pos, decO := w.two_pow_pos, decLen := w.two_pow_pos, decCap := w.two_pow_pos
    undJ := w.two_pow_pos, undN := w.two_pow_pos }

/-- The one move that brings in a number of its own (R29, R211). -/
theorem doDrive_fitsWidth {p : InPort} {v : Nat} (hv : v < 2 ^ w) (hs : s.FitsWidth w) (h : doDrive p v s = .next t) :
    t.FitsWidth w := by
  obtain rfl := Host.Outcome.next.inj h
  cases p with
  | decLen => exact { hs with decLenIn := hv }
  | decCap => exact { hs with decCapIn := hv }
  | undBlen => exact { hs with undBlenIn := hv }
  | undElen => exact { hs with undElenIn := hv }

theorem doReadPort_fitsWidth {p : OutPort} (hs : s.FitsWidth w) (h : doReadPort p s = .next t) : t.FitsWidth w := by
  rcases doReadPort_cases h with ⟨_, rfl⟩ | ⟨_, rfl⟩
  · exact hs.congr (s.release_dec p) (s.release_und p) (s.release_ports p) (s.release_turns p)
  · exact { hs with }

theorem command_fitsWidth {c : Command} (hc : (Turn.host c).fits w) (hs : s.FitsWidth w) (h : command c s = .next t) :
    t.FitsWidth w := by
  cases c with
  | reset l =>
    obtain rfl := Host.Outcome.next.inj h
    exact State.resetUnits_fitsWidth hs
  | decStart => exact decStart_fitsWidth hs h
  | undStart => exact undStart_fitsWidth hs h
  | readPort p => exact doReadPort_fitsWidth hs h
  | bind sp b =>
    obtain ⟨_, rfl⟩ := doBind_eq_next.1 h
    exact { hs with }
  | drive p v => exact doDrive_fitsWidth hc hs h
  | write a b =>
    obtain ⟨_, rfl⟩ := doWrite_eq_next.1 h
    exact { hs with }
  | read a =>
    obtain ⟨_, _, _, rfl⟩ := doRead_eq_next.1 h
    exact { hs with }

theorem takeTurn_fitsWidth {x : Turn} (hx : x.fits w) (hs : s.FitsWidth w) (h : takeTurn x s = .next t) :
    t.FitsWidth w := by
  cases x with
  | dec =>
    rcases takeTurn_dec_cases h with ⟨_, h⟩ | ⟨_, rfl⟩
    · exact decStep_fitsWidth hs h
    · exact hs
  | und =>
    rcases takeTurn_und_cases h with ⟨_, h⟩ | ⟨_, rfl⟩
    · exact undStep_fitsWidth hs h
    · exact hs
  | host c => exact command_fitsWidth hx hs h

/-- A unit's own turn drives no number. -/
theorem State.freeTurn_fits (s : State) : s.freeTurn.fits w := by
  unfold State.freeTurn
  split <;> trivial

/-- Settles O37: every turn keeps the width, and a step is the turn listed next or the free turn. -/
theorem indicesNeverOutgrowTheirWidth : Obligations.IndicesNeverOutgrowTheirWidth := by
  intro w s t hs h
  cases hturns : s.turns with
  | nil =>
    rw [step_of_no_turn hturns, freeRun_eq_takeTurn] at h
    exact takeTurn_fitsWidth s.freeTurn_fits hs h
  | cons x rest =>
    rw [step_of_turn hturns] at h
    have hx : x.fits w := hs.toCome x (hturns ▸ List.mem_cons_self)
    have hrest : ({ s with turns := rest } : State).FitsWidth w :=
      { hs with toCome := fun y hy => hs.toCome y (hturns ▸ List.mem_cons_of_mem x hy) }
    exact takeTurn_fitsWidth hx hrest h

end Sys2Proof.Machine
end

section
/-! PROOFS of 10_state: the invariant at reset and over every move of every agent (R27, R30, R31, R33, R39, R63, R204), the
decoder's two cursors (R25, R26, R112), and port reads (R35, R152). -/

namespace Sys2Proof.Machine

variable {s t : State}

/-! ### Registers that cohere -/

/-- Registers with nothing read or written yet cohere, before an invocation (R39) and at its beginning (R150). -/
theorem DecRegs.coherent_start {len cap : Nat} {st : Status} (hdone : st ≠ .done) (herr : st ≠ .err) :
    ({ i := 0, o := 0, len := len, cap := cap, status := st, err := .none } : DecRegs).Coherent where
  scanInStream := Nat.zero_le _
  cursorInBuffer := Nat.zero_le _
  outputPerInput := Nat.zero_le _
  noErrorUnlessErr _ := rfl
  errorWhenErr h := absurd h herr
  doneAtEnd h := absurd h hdone
  failedInside h := absurd h herr

/-- The same for the delta unit (R39, R155). -/
theorem UndRegs.coherent_start {n : Nat} {st : Status} (hdone : st ≠ .done) (herr : st ≠ .err) :
    ({ j := 0, n := n, status := st, err := .none } : UndRegs).Coherent where
  elementInBuffer := Nat.zero_le _
  noErrorUnlessErr _ := rfl
  mismatchWhenErr h := absurd h herr
  doneAtEnd h := absurd h hdone

/-- `LengthMismatch` leaves both numbers 0 (R173). -/
theorem UndRegs.coherent_lengthMismatch :
    ({ j := 0, n := 0, status := .err, err := .lengthMismatch } : UndRegs).Coherent where
  elementInBuffer := le_rfl
  noErrorUnlessErr h := absurd rfl h
  mismatchWhenErr _ := ⟨rfl, rfl, rfl⟩
  doneAtEnd := nofun

section
variable {d : DecRegs} (hd : d.Coherent)
include hd

/-- The decoder raises its two errors with the scan index still inside the stream (R171, R172, R177). -/
theorem DecRegs.Coherent.fail {e : ErrCode} (he : e = .truncatedInput ∨ e = .outputOverflow) (hi : d.i < d.len) :
    ({ d with err := e, status := .err } : DecRegs).Coherent :=
  { hd with
    noErrorUnlessErr := fun h => absurd rfl h
    errorWhenErr := fun _ => he
    doneAtEnd := nofun
    failedInside := fun _ => hi }

variable (hr : d.status = .run)
include hr

/-- A running decoder has no error code, so neither has one that ends at the end of its stream (R102). -/
theorem DecRegs.Coherent.finish (hi : d.i = d.len) : ({ d with status := .done } : DecRegs).Coherent :=
  { hd with
    noErrorUnlessErr := fun _ => hd.noErrorUnlessErr (by simp [hr])
    errorWhenErr := nofun
    doneAtEnd := fun _ => hi
    failedInside := nofun }

/-- A record that fits advances both cursors within their bounds, by at most 127 bytes of output for each byte of the
stream (R27, R92). -/
theorem DecRegs.Coherent.advance {c : Byte} (hi : d.i + recordLength c ≤ d.len) (ho : d.o + controlCount c ≤ d.cap) :
    ({ d with i := d.i + recordLength c, o := d.o + controlCount c } : DecRegs).Coherent :=
  { hd with
    scanInStream := hi
    cursorInBuffer := ho
    outputPerInput := by
      have hcount := controlCount_le_length c
      have hold := hd.outputPerInput
      show d.o + controlCount c ≤ 127 * (d.i + recordLength c)
      omega
    doneAtEnd := fun h => by simp [hr] at h
    failedInside := fun h => by simp [hr] at h }

end

section
variable {u : UndRegs} (hu : u.Coherent) (hr : u.status = .run)
include hu hr

theorem UndRegs.Coherent.finish (hj : u.j = u.n) : ({ u with status := .done } : UndRegs).Coherent :=
  { hu with
    noErrorUnlessErr := fun _ => hu.noErrorUnlessErr (by simp [hr])
    mismatchWhenErr := nofun
    doneAtEnd := fun _ => hj }

theorem UndRegs.Coherent.advance (hj : u.j < u.n) : ({ u with j := u.j + 1 } : UndRegs).Coherent :=
  { hu with
    elementInBuffer := hj
    mismatchWhenErr := fun h => by simp [hr] at h
    doneAtEnd := fun h => by simp [hr] at h }

end

/-! ### What the invariant depends on -/

/-- The invariant asks of bindings and hand-over bits only those of a running unit, and of the ports and the model's own
fields nothing. -/
theorem State.Inv.congr (hs : s.Inv) (hm : Memory.wf t.mem) (hd : t.dec = s.dec) (hu : t.und = s.und)
    (hdec : s.dec.status = .run →
      t.binding.inp = s.binding.inp ∧ t.binding.out = s.binding.out ∧ t.decHeld = s.decHeld)
    (hund : s.und.status = .run →
      t.binding.base = s.binding.base ∧ t.binding.enc = s.binding.enc ∧ t.undHeld = s.undHeld) : t.Inv where
  memWf := hm
  dec := hd ▸ hs.dec
  und := hu ▸ hs.und
  decLaunched hr := by
    rw [hd] at hr
    obtain ⟨hinp, hout, _⟩ := hdec hr
    obtain ⟨inFits, outFits, apart⟩ := hs.decLaunched hr
    constructor <;> simpa only [hd, hinp, hout]
  undLaunched hr := by
    rw [hu] at hr
    obtain ⟨hbase, henc, _⟩ := hund hr
    obtain ⟨baseFits, encFits, apart⟩ := hs.undLaunched hr
    constructor <;> simpa only [hu, hbase, henc]
  decHeld hr := by
    rw [hd] at hr
    obtain ⟨_, _, hheld⟩ := hdec hr
    exact hheld.trans (hs.decHeld hr)
  undHeld hr := by
    rw [hu] at hr
    obtain ⟨_, _, hheld⟩ := hund hr
    exact hheld.trans (hs.undHeld hr)
  unitsApart hrd hru := by
    rw [hd] at hrd
    rw [hu] at hru
    obtain ⟨hinp, hout, _⟩ := hdec hrd
    obtain ⟨hbase, henc, _⟩ := hund hru
    simpa only [State.unitsCollide, hinp, hout, hbase, henc] using hs.unitsApart hrd hru

/-- Of a move that changes no register, no binding and no hand-over bit, the invariant asks canonical memory only. -/
theorem State.Inv.congr_mem (hs : s.Inv) (hm : Memory.wf t.mem) (hd : t.dec = s.dec) (hu : t.und = s.und)
    (hb : t.binding = s.binding) (hdh : t.decHeld = s.decHeld) (huh : t.undHeld = s.undHeld) : t.Inv :=
  hs.congr hm hd hu (fun _ => by simp [hb, hdh]) (fun _ => by simp [hb, huh])

/-- A running decoder keeps the invariant while its registers cohere and its sampled lengths stay. -/
theorem State.Inv.update_dec (hs : s.Inv) (hr : s.dec.status = .run) {m : Memory} {d : DecRegs} (hm : Memory.wf m)
    (hd : d.Coherent) (hlen : d.len = s.dec.len) (hcap : d.cap = s.dec.cap) :
    ({ s with mem := m, dec := d } : State).Inv :=
  { hs with
    memWf := hm
    dec := hd
    decLaunched := fun _ =>
      { hs.decLaunched hr with
        inFits := hlen.trans_le (hs.decLaunched hr).inFits
        outFits := hcap.trans_le (hs.decLaunched hr).outFits }
    undLaunched := fun h => { hs.undLaunched h with }
    decHeld := fun _ => hs.decHeld hr
    unitsApart := fun _ h => hs.unitsApart hr h }

/-- The same for the delta unit. -/
theorem State.Inv.update_und (hs : s.Inv) (hr : s.und.status = .run) {m : Memory} {u : UndRegs} (hm : Memory.wf m)
    (hu : u.Coherent) (hn : u.n = s.und.n) : ({ s with mem := m, und := u } : State).Inv :=
  { hs with
    memWf := hm
    und := hu
    decLaunched := fun h => { hs.decLaunched h with }
    undLaunched := fun _ =>
      { hs.undLaunched hr with
        baseFits := hn.trans_le (hs.undLaunched hr).baseFits
        encFits := hn.trans_le (hs.undLaunched hr).encFits }
    undHeld := fun _ => hs.undHeld hr
    unitsApart := fun h _ => hs.unitsApart h hr }

/-- With both units at their reset values no unit runs, and nothing more is asked than canonical memory (R39). -/
theorem State.inv_of_reset_registers (hm : Memory.wf s.mem) (hd : s.dec = DecRegs.reset) (hu : s.und = UndRegs.reset) :
    s.Inv where
  memWf := hm
  dec := hd ▸ DecRegs.coherent_start nofun nofun
  und := hu ▸ UndRegs.coherent_start nofun nofun
  decLaunched h := by simp [hd] at h
  undLaunched h := by simp [hu] at h
  decHeld h := by simp [hd] at h
  undHeld h := by simp [hu] at h
  unitsApart h := by simp [hd] at h

/-- Settles O33. -/
theorem resetLeavesTheStatedValues : Obligations.ResetLeavesTheStatedValues := ⟨rfl, rfl, rfl⟩

/-- Settles O35: no byte is listed, and the registers are those of a reset. -/
theorem resetSatisfiesTheInvariant : Obligations.ResetSatisfiesTheInvariant :=
  State.inv_of_reset_registers List.Pairwise.nil rfl rfl

/-! ### Every move keeps the invariant -/

/-- The end of the scan, the two errors and a record that fits (R100, R102). -/
theorem decStep_inv (hs : s.Inv) (hr : s.dec.status = .run) (h : decStep s = .next t) : t.Inv := by
  rcases decStep_cases h with ⟨hi, rfl⟩ | ⟨_, h⟩
  · exact hs.update_dec hr hs.memWf (hs.dec.finish hr hi) rfl rfl
  · obtain ⟨c, hlt, _, ⟨rfl, _⟩ | ⟨rfl, _⟩ | ⟨_, _, m, _, _, _, rfl, hi, ho, hwf, _⟩⟩ := decRecord_cases h
    · exact hs.update_dec hr hs.memWf (hs.dec.fail (.inl rfl) hlt) rfl rfl
    · exact hs.update_dec hr hs.memWf (hs.dec.fail (.inr rfl) hlt) rfl rfl
    · exact hs.update_dec hr (hwf hs.memWf) (hs.dec.advance hr hi ho) rfl rfl

/-- The end of the reversal and one element (R131, R133). -/
theorem undStep_inv (hs : s.Inv) (hr : s.und.status = .run) (h : undStep s = .next t) : t.Inv := by
  rcases undStep_cases h with ⟨hj, rfl⟩ | ⟨_, h⟩
  · exact hs.update_und hr hs.memWf (hs.und.finish hr hj) rfl
  · obtain ⟨_, _, a, hj, _, _, _, rfl⟩ := undElement_cases h
    exact hs.update_und hr (Memory.wf_write hs.memWf a _) (hs.und.advance hr hj) rfl

/-- A start command that is not refused is a true launch on buffers that lie apart (R63, R204). -/
theorem decStart_inv (hs : s.Inv) (h : decStart s = .next t) : t.Inv := by
  rcases decStart_cases h with ⟨_, rfl⟩ | ⟨_, hp, rfl⟩
  · exact hs
  · obtain ⟨inFits, outFits, apart, unitsApart⟩ := State.decLaunchProblem_eq_none.1 hp
    exact { hs with
      dec := DecRegs.coherent_start nofun nofun
      decLaunched := fun _ => ⟨inFits, outFits, apart⟩
      undLaunched := fun h => { hs.undLaunched h with }
      decHeld := fun _ => rfl
      unitsApart := fun _ h => unitsApart h }

/-- The same for the delta unit; after `LengthMismatch` it does not run (R173). -/
theorem undStart_inv (hs : s.Inv) (h : undStart s = .next t) : t.Inv := by
  rcases undStart_cases h with ⟨_, rfl⟩ | ⟨_, _, rfl⟩ | ⟨_, hlen, hp, rfl⟩
  · exact hs
  · exact { hs with
      und := UndRegs.coherent_lengthMismatch
      decLaunched := fun h => { hs.decLaunched h with }
      undLaunched := nofun
      undHeld := nofun
      unitsApart := nofun }
  · obtain ⟨baseFits, encFits, apart, unitsApart⟩ := State.undLaunchProblem_eq_none.1 hp
    exact { hs with
      und := UndRegs.coherent_start nofun nofun
      decLaunched := fun h => { hs.decLaunched h with }
      undLaunched := fun _ => ⟨baseFits, hlen.trans_le encFits, apart⟩
      undHeld := fun _ => rfl
      unitsApart := fun h _ => unitsApart h }

/-- The unspecified bytes a reset leaves keep memory canonical (R201). -/
theorem State.scrambleOut_wf (h : Memory.wf s.mem) : Memory.wf s.scrambleOut.mem := by
  unfold State.scrambleOut
  split
  · obtain ⟨_, hwf, _⟩ := s.scramble_spec .out s.dec.cap
    exact hwf h
  · exact h

theorem State.scrambleEnc_wf (h : Memory.wf s.mem) : Memory.wf s.scrambleEnc.mem := by
  unfold State.scrambleEnc
  split
  · obtain ⟨_, hwf, _⟩ := s.scramble_spec .enc s.und.n
    exact hwf h
  · exact h

theorem State.resetUnits_wf (h : Memory.wf s.mem) : Memory.wf s.resetUnits.mem :=
  State.scrambleEnc_wf (State.scrambleOut_wf h)

/-- An undefined port is no status port, so reading it ends no hand-over (R35, R207). -/
theorem State.release_of_undefined {p : OutPort} (h : s.portDefined p = false) : s.release p = s := by
  cases p with
  | decStatus | undStatus => exact absurd h (by simp [State.portDefined])
  | decErr | decCount | decI | undErr | undJ => rfl

/-- A port read only logs what the port shows and may end a hand-over; a defined port shows its register (R35, R152). -/
theorem doReadPort_eq (p : OutPort) (s : State) :
    ∃ v f, doReadPort p s = .next { s.release p with seen := v :: s.seen, free := f } ∧
      (s.portDefined p = true → v = s.portRegister p) := by
  cases hp : s.portDefined p with
  | true => exact ⟨s.portRegister p, (s.release p).free, by simp [doReadPort, hp], fun _ => rfl⟩
  | false => exact ⟨freePort p s.free, s.free + 1, by simp [doReadPort, hp, State.release_of_undefined hp], nofun⟩

/-- A running unit's hand-over does not end with a port read (R207). -/
theorem doReadPort_inv {p : OutPort} (hs : s.Inv) (h : doReadPort p s = .next t) : t.Inv := by
  obtain ⟨v, f, e, _⟩ := doReadPort_eq p s
  obtain rfl := Host.Outcome.next.inj (e.symm.trans h)
  refine hs.congr ?_ (s.release_dec p) (s.release_und p) (fun hr => ?_) (fun hr => ?_)
  · exact (s.release_mem p).symm ▸ hs.memWf
  · simp [State.release_keeps_decHeld s p hr]
  · simp [State.release_keeps_undHeld s p hr]

/-- A port that may be bound anew is none of a unit that holds its buffers (R207). -/
theorem State.set_keeps_dec_ports {sp : Space} {b : Option Buffer} (hfree : s.spaceHeld sp = false)
    (hheld : s.decHeld = true) :
    (s.binding.set b sp).inp = s.binding.inp ∧ (s.binding.set b sp).out = s.binding.out := by
  cases sp with
  | inp | out => exact absurd hheld (Bool.eq_false_iff.1 hfree)
  | base | enc => exact ⟨rfl, rfl⟩

theorem State.set_keeps_und_ports {sp : Space} {b : Option Buffer} (hfree : s.spaceHeld sp = false)
    (hheld : s.undHeld = true) :
    (s.binding.set b sp).base = s.binding.base ∧ (s.binding.set b sp).enc = s.binding.enc := by
  cases sp with
  | base | enc => exact absurd hheld (Bool.eq_false_iff.1 hfree)
  | inp | out => exact ⟨rfl, rfl⟩

theorem doBind_inv {sp : Space} {b : Option Buffer} (hs : s.Inv) (h : doBind sp b s = .next t) : t.Inv := by
  obtain ⟨hfree, rfl⟩ := doBind_eq_next.1 h
  refine hs.congr hs.memWf rfl rfl (fun hr => ?_) (fun hr => ?_)
  · obtain ⟨hinp, hout⟩ := State.set_keeps_dec_ports (b := b) hfree (hs.decHeld hr)
    exact ⟨hinp, hout, rfl⟩
  · obtain ⟨hbase, henc⟩ := State.set_keeps_und_ports (b := b) hfree (hs.undHeld hr)
    exact ⟨hbase, henc, rfl⟩

theorem command_inv {c : Command} (hs : s.Inv) (h : command c s = .next t) : t.Inv := by
  cases c with
  | reset l =>
    obtain rfl := Host.Outcome.next.inj h
    exact State.inv_of_reset_registers (State.resetUnits_wf hs.memWf) rfl rfl
  | decStart => exact decStart_inv hs h
  | undStart => exact undStart_inv hs h
  | readPort p => exact doReadPort_inv hs h
  | bind sp b => exact doBind_inv hs h
  | drive p v =>
    obtain rfl := Host.Outcome.next.inj h
    exact hs.congr_mem hs.memWf rfl rfl rfl rfl rfl
  | write a b =>
    obtain ⟨_, rfl⟩ := doWrite_eq_next.1 h
    exact hs.congr_mem (Memory.wf_write hs.memWf a b) rfl rfl rfl rfl rfl
  | read a =>
    obtain ⟨_, _, _, rfl⟩ := doRead_eq_next.1 h
    exact hs.congr_mem hs.memWf rfl rfl rfl rfl rfl

theorem takeTurn_inv {x : Turn} (hs : s.Inv) (h : takeTurn x s = .next t) : t.Inv := by
  cases x with
  | dec =>
    rcases takeTurn_dec_cases h with ⟨hr, h⟩ | ⟨_, rfl⟩
    · exact decStep_inv hs hr h
    · exact hs
  | und =>
    rcases takeTurn_und_cases h with ⟨hr, h⟩ | ⟨_, rfl⟩
    · exact undStep_inv hs hr h
    · exact hs
  | host c => exact command_inv hs h

/-- Settles O36: every turn keeps the invariant, and a step is the turn listed next or the free turn. -/
theorem everyStepKeepsTheInvariant : Obligations.EveryStepKeepsTheInvariant := by
  intro s t hs h
  cases hturns : s.turns with
  | nil =>
    rw [step_of_no_turn hturns, freeRun_eq_takeTurn] at h
    exact takeTurn_inv hs h
  | cons x rest =>
    rw [step_of_turn hturns] at h
    have hrest : ({ s with turns := rest } : State).Inv := hs.congr_mem hs.memWf rfl rfl rfl rfl rfl
    exact takeTurn_inv hrest h

/-! ### The decoder's two cursors -/

/-- Settles O40: of all a decoder's step can do only a record that fits writes, from the old cursor to the new one. -/
theorem outputIsAppendOnly : Obligations.OutputIsAppendOnly := by
  intro s t ho h
  rcases decStep_cases h with ⟨_, rfl⟩ | ⟨_, h⟩
  · exact ⟨le_rfl, ho, rfl, rfl, fun _ _ => rfl⟩
  · obtain ⟨c, _, _, ⟨rfl, _⟩ | ⟨rfl, _⟩ | ⟨_, _, m, _, _, _, rfl, _, hfit, _, same, _⟩⟩ := decRecord_cases h
    · exact ⟨le_rfl, ho, rfl, rfl, fun _ _ => rfl⟩
    · exact ⟨le_rfl, ho, rfl, rfl, fun _ _ => rfl⟩
    · exact ⟨Nat.le_add_right _ _, hfit, rfl, rfl, fun _ hk => same.peek_outside rfl hk⟩

/-- Settles O41: a record is 1 to 128 bytes long and produces at most 127; whatever else a step does ends the run. -/
theorem scanOnlyMovesForward : Obligations.ScanOnlyMovesForward := by
  intro s t hr h
  rcases decStep_cases h with ⟨_, rfl⟩ | ⟨_, h⟩
  · exact .inl ⟨nofun, rfl, rfl⟩
  · obtain ⟨c, _, _, ⟨rfl, _⟩ | ⟨rfl, _⟩ | ⟨_, _, m, _, _, _, rfl, hi, _⟩⟩ := decRecord_cases h
    · exact .inl ⟨nofun, rfl, rfl⟩
    · exact .inl ⟨nofun, rfl, rfl⟩
    · exact .inr ⟨hr, Nat.lt_add_of_pos_right (recordLength_pos c), Nat.add_le_add_left (recordLength_le c) _, hi,
        Nat.add_le_add_left (controlCount_le c) _⟩

/-! ### Port reads -/

/-- Settles O31: a port read is `release`, which touches nothing but a hand-over bit, and one entry of the log. -/
theorem portReadsHaveNoSideEffect : Obligations.PortReadsHaveNoSideEffect := by
  intro s rest p hturns
  obtain ⟨v, f, e, hv⟩ := doReadPort_eq p { s with turns := rest }
  refine ⟨_, v, (step_of_turn hturns).trans e, rfl, State.release_turns _ p, State.release_dec _ p, State.release_und _ p,
    State.release_binding _ p, State.release_ports _ p, State.release_mem _ p, ?_, ?_, fun hd => ⟨?_, ?_, ?_⟩,
    fun hu => ⟨?_, ?_⟩, ?_, ?_⟩
  · rintro rfl; exact hv rfl
  · rintro rfl; exact hv rfl
  · rintro rfl; exact hv (decide_eq_true hd)
  · rintro rfl; exact hv (decide_eq_true hd)
  · rintro rfl; exact hv (decide_eq_true hd)
  · rintro rfl; exact hv (decide_eq_true hu)
  · rintro rfl; exact hv (decide_eq_true hu)
  · by_cases hp : p = .decStatus <;> simp [State.release_decHeld, hp]
  · by_cases hp : p = .undStatus <;> simp [State.release_undHeld, hp]

end Sys2Proof.Machine
end

section
/-! PROOFS of 20_memory: a record's frame and that it never stops on a true capacity (R54, R58), the launches the hazard
rules refuse (R63, R204), the host's own accesses (R60, R66), what a unit only reads (R53, R55, R69), and that a running unit
with its input written always steps (R58, R162). -/

namespace Sys2Proof.Machine

variable {s t : State} {i : Instr}

/-! ### One record -/

/-- A well-formed record produces as many bytes as its count says (R84, R93). -/
theorem expansion_length_of_wf (hi : i.wf = true) : i.expansion.length = i.count := by
  cases i with
  | repeatRun n v => exact (Laws.EncodedLength.repeatRun n v hi).2
  | literalRun n bs => exact (Laws.EncodedLength.literalRun n bs hi).2

/-- Settles O13: a record raises one of its errors, or it fits and writes its expansion at the cursor. -/
theorem recordFrame : Obligations.RecordFrame := by
  intro i s t hi h
  rw [exec_eq_completeRecord] at h
  rcases completeRecord_cases h with ⟨rfl, _⟩ | ⟨rfl, _⟩ | ⟨m, rfl, _, _, _, same, holds⟩
  · exact .inl ⟨.truncatedInput, rfl⟩
  · exact .inl ⟨.outputOverflow, rfl⟩
  · rw [expansion_length_of_wf hi] at same
    exact .inr ⟨rfl, rfl, holds.congr fun _ _ _ => rfl, same⟩

/-- The three outcomes of the checks: two errors, and a record that fits, whose writes the true capacity lets through
(R58, R175). -/
theorem exec_answers (hi : i.wf = true) (hcap : s.dec.cap ≤ Buffer.sizeOf s.binding.out) : ∃ t, exec i s = .next t := by
  rw [exec_eq_completeRecord]
  rcases s.recordError_cases i.length i.count with ⟨_, hin⟩ | ⟨_, hin, hout⟩ | ⟨_, hin, hout⟩
  · exact ⟨_, completeRecord_truncated hin⟩
  · exact ⟨_, completeRecord_overflow hin hout⟩
  · obtain ⟨m, h, _⟩ := completeRecord_completes (expansion_length_of_wf hi) hin hout fun _ => hcap
    exact ⟨_, h⟩

/-- Settles O14. -/
theorem recordsNeverStopAConformingMachine : Obligations.RecordsNeverStopAConformingMachine :=
  fun _ _ hi hcap => exec_answers hi hcap

/-! ### Launches -/

/-- Outside `RUN` a start command is refused exactly when one condition of a true launch fails (R63, R150, R204, R209). -/
theorem decStart_refused_iff (hr : s.dec.status ≠ .run) :
    (∃ r, decStart s = .refused r) ↔
      Buffer.sizeOf s.binding.inp < s.ports.decLen ∨ Buffer.sizeOf s.binding.out < s.ports.decCap ∨
        Buffer.overlap s.binding.inp s.binding.out = true ∨ s.und.status = .run ∧ s.unitsCollide = true := by
  have hproblem : (∃ r, decStart s = .refused r) ↔ ¬ s.decLaunchProblem = none := by
    cases hp : s.decLaunchProblem <;> simp [decStart, hr, hp]
  simp only [hproblem, State.decLaunchProblem_eq_none, not_and_or, not_le, Classical.not_imp, Bool.not_eq_false]

/-- The same for the delta unit, past its length check (R155, R208). -/
theorem undStart_refused_iff (hr : s.und.status ≠ .run) (hlen : s.ports.undBlen = s.ports.undElen) :
    (∃ r, undStart s = .refused r) ↔
      Buffer.sizeOf s.binding.base < s.ports.undBlen ∨ Buffer.sizeOf s.binding.enc < s.ports.undElen ∨
        Buffer.overlap s.binding.base s.binding.enc = true ∨ s.dec.status = .run ∧ s.unitsCollide = true := by
  have hproblem : (∃ r, undStart s = .refused r) ↔ ¬ s.undLaunchProblem = none := by
    cases hp : s.undLaunchProblem <;> simp [undStart, hr, hlen, hp]
  simp only [hproblem, State.undLaunchProblem_eq_none, not_and_or, not_le, Classical.not_imp, Bool.not_eq_false]

/-- Settles O28: the step is the start command, and taking a move off the list changes nothing a launch asks. -/
theorem launchesOutsideTheSpecAreRefused : Obligations.LaunchesOutsideTheSpecAreRefused := by
  intro s rest
  refine ⟨fun hturns hr => ?_, fun hturns hr hlen => ?_⟩
  · rw [step_of_turn hturns]
    exact decStart_refused_iff (s := { s with turns := rest }) hr
  · rw [step_of_turn hturns]
    exact undStart_refused_iff (s := { s with turns := rest }) hr hlen

/-! ### The host's accesses -/

/-- The host writes a byte no unit holds (R158, R207). -/
theorem step_of_write {a : Nat} {b : Byte} {rest : List Turn} (hturns : s.turns = .host (.write a b) :: rest)
    (hfree : s.addressHeld a = false) : step s = .next { s with turns := rest, mem := s.mem.write a b } :=
  (step_of_turn hturns).trans (doWrite_eq_next.2 ⟨hfree, rfl⟩)

/-- The host reads a written byte no unit holds (R158, R207). -/
theorem step_of_read {a : Nat} {b : Byte} {rest : List Turn} (hturns : s.turns = .host (.read a) :: rest)
    (hfree : s.addressHeld a = false) (hb : s.mem.read a = some b) :
    step s = .next { s with turns := rest, seen := b.toNat :: s.seen } :=
  (step_of_turn hturns).trans (doRead_eq_next.2 ⟨hfree, b, hb, rfl⟩)

/-- Settles O30: neither move is refused, as the write changes no hand-over bit and no binding; the rest is `read_write`. -/
theorem hostReadsBackWhatItWrote : Obligations.HostReadsBackWhatItWrote := by
  intro s rest a b hfree hturns
  have hread : Memory.read (s.mem.write a b) a = some b := Memory.read_write_same _ a b
  exact ⟨_, _, step_of_write hturns hfree, step_of_read rfl hfree hread, hread,
    fun _ hne => Memory.read_write_other _ b hne, rfl, rfl⟩

/-! ### What a unit only reads -/

/-- A decoder's step writes at most the bytes its cursor passes over (R54, R71). -/
theorem decStep_frame (h : decStep s = .next t) :
    t.binding = s.binding ∧ s.SameMemoryBut t .out s.dec.o t.dec.o := by
  rcases decStep_cases h with ⟨_, rfl⟩ | ⟨_, h⟩
  · exact ⟨rfl, fun _ _ => rfl⟩
  · obtain ⟨c, _, _, ⟨rfl, _⟩ | ⟨rfl, _⟩ | ⟨_, _, m, _, _, _, rfl, _, _, _, same, _⟩⟩ := decRecord_cases h
    · exact ⟨rfl, fun _ _ => rfl⟩
    · exact ⟨rfl, fun _ _ => rfl⟩
    · exact ⟨rfl, same⟩

/-- The delta unit's step writes at most the element its index passes over (R55, R131). -/
theorem undStep_frame (h : undStep s = .next t) :
    t.binding = s.binding ∧ s.SameMemoryBut t .enc s.und.j t.und.j := by
  rcases undStep_cases h with ⟨_, rfl⟩ | ⟨_, h⟩
  · exact ⟨rfl, fun _ _ => rfl⟩
  · obtain ⟨b, e, a, _, _, _, ha, rfl⟩ := undElement_cases h
    refine ⟨rfl, fun a' hout => Memory.read_write_other _ _ ?_⟩
    rintro rfl
    exact hout s.und.j le_rfl (Nat.lt_succ_self _) ha

/-- Units that do not collide have three pairs of buffers apart; `IN` and `BASE` may share memory (R63). -/
theorem State.unitsCollide_eq_false :
    s.unitsCollide = false ↔
      Buffer.overlap s.binding.inp s.binding.enc = false ∧ Buffer.overlap s.binding.out s.binding.base = false ∧
        Buffer.overlap s.binding.out s.binding.enc = false := by
  simp only [State.unitsCollide, Bool.or_eq_false_iff, and_assoc]

/-- Settles O39: a step writes one buffer of its unit, and the invariant keeps the buffers named apart from that one. -/
theorem unitsNeverWriteWhatTheyOnlyRead : Obligations.UnitsNeverWriteWhatTheyOnlyRead := by
  refine ⟨fun s t hs hr h => ?_, fun s t hs hr h => ?_⟩
  · obtain ⟨hb, same⟩ := decStep_frame h
    have hinp := (hs.decLaunched hr).apart
    rw [Buffer.overlap_comm] at hinp
    refine ⟨same.peek_apart hb hinp, fun hru k => ?_⟩
    obtain ⟨_, hbase, henc⟩ := State.unitsCollide_eq_false.1 (hs.unitsApart hr hru)
    exact ⟨same.peek_apart (sp' := .base) hb hbase k, same.peek_apart (sp' := .enc) hb henc k⟩
  · obtain ⟨hb, same⟩ := undStep_frame h
    have hbase := (hs.undLaunched hr).apart
    rw [Buffer.overlap_comm] at hbase
    refine ⟨same.peek_apart hb hbase, fun hrd k => ?_⟩
    obtain ⟨hinp, _, hout⟩ := State.unitsCollide_eq_false.1 (hs.unitsApart hrd hr)
    rw [Buffer.overlap_comm] at hinp hout
    exact ⟨same.peek_apart (sp' := .inp) hb hinp k, same.peek_apart (sp' := .out) hb hout k⟩

/-! ### A running unit always steps -/

/-- A range of written bytes holds some list of bytes. -/
theorem State.exists_holds {sp : Space} {k n : Nat} (h : ∀ j, k ≤ j → j < k + n → ∃ b, s.peek sp j = some b) :
    ∃ bs, bs.length = n ∧ s.Holds sp k bs := by
  induction n generalizing k with
  | zero => exact ⟨[], rfl, trivial⟩
  | succ n ih =>
    obtain ⟨b, hb⟩ := h k le_rfl (by omega)
    obtain ⟨bs, hlen, hbs⟩ := ih (k := k + 1) fun j h1 h2 => h j (by omega) (by omega)
    exact ⟨b :: bs, by simp [hlen], hb, hbs⟩

/-- Inside a written stream a record is either cut short, which is an error, or wholly there and run (R91, R100, R171). -/
theorem decRecord_answers (hcap : s.dec.cap ≤ Buffer.sizeOf s.binding.out) (hlt : s.dec.i < s.dec.len)
    (hin : ∀ k < s.dec.len, ∃ b, s.peek .inp k = some b) : ∃ t, decRecord s = .next t := by
  obtain ⟨c, hc⟩ := hin s.dec.i hlt
  by_cases hfit : s.dec.i + recordLength c ≤ s.dec.len
  · have hpos := recordLength_pos c
    obtain ⟨body, hlen, hbody⟩ : ∃ body, body.length = recordLength c - 1 ∧ s.Holds .inp (s.dec.i + 1) body :=
      State.exists_holds fun j _ hj => hin j (by omega)
    have hlen : 1 + body.length = recordLength c := by omega
    obtain ⟨i, hdec, hwf, _⟩ := decodeRecord_whole c body [] hlen
    rw [List.append_nil] at hdec
    rw [decRecord_runs hc hlen hfit hbody hdec]
    exact exec_answers hwf hcap
  · exact ⟨_, decRecord_raises hlt hc (if_pos (not_le.1 hfit))⟩

/-- Settles O42: at its end a unit writes `DONE`; before it, the invariant bounds its index and gives a true capacity. -/
theorem runningUnitsAlwaysStep : Obligations.RunningUnitsAlwaysStep := by
  refine ⟨fun s hs hr hin => ?_, fun s hs _ hin => ?_⟩
  · unfold decStep
    split
    case isTrue hend => exact ⟨_, rfl⟩
    case isFalse hne =>
      exact decRecord_answers (hs.decLaunched hr).outFits (lt_of_le_of_ne hs.dec.scanInStream hne) hin
  · unfold undStep
    split
    case isTrue hend => exact ⟨_, rfl⟩
    case isFalse hne =>
      have hlt : s.und.j < s.und.n := lt_of_le_of_ne hs.und.elementInBuffer hne
      obtain ⟨⟨b, hb⟩, e, he⟩ := hin s.und.j hlt
      obtain ⟨a, _, h⟩ := undElement_completes hlt hb he
      exact ⟨_, h⟩

end Sys2Proof.Machine
end

section
/-! PROOFS of 30_encoding: the control byte's fields (R81, R86), that one record and whole streams are decoded and encoded
back and forth (R87, R89 to R91, R93), the bounds on the expanded length (R92), and that a placed word runs at once (R203; log
entry 16). -/

namespace Sys2Proof

variable {c : Byte} {s tail : List Byte} {i : Instr} {rs : List Instr}

/-! ### The control byte -/

/-- The mode is the bit under mask `0x80` (R81, R86). -/
theorem and_modeMask (c : Byte) : c &&& 0x80#8 = if controlMode c then 0x80#8 else 0x00#8 :=
  BitVec.and_twoPow c 7

/-- The count is the value under mask `0x7F` (R81). -/
theorem toNat_and_countMask (c : Byte) : (c &&& 0x7F#8).toNat = controlCount c := by
  rw [controlCount_eq, BitVec.toNat_and]
  exact Nat.and_two_pow_sub_one_eq_mod c.toNat 7

theorem toNat_of_repeat (h : controlMode c = false) : c.toNat = controlCount c := by
  simpa [h] using toNat_eq_fields c

theorem toNat_of_literal (h : controlMode c = true) : c.toNat = 128 + controlCount c := by
  simpa [h] using toNat_eq_fields c

/-- A control byte is the one the encoder writes for its count and mode. -/
theorem ofNat_controlCount_of_repeat (h : controlMode c = false) : BitVec.ofNat 8 (controlCount c) = c := by
  rw [← toNat_of_repeat h, BitVec.ofNat_toNat, BitVec.setWidth_eq]

theorem ofNat_controlCount_of_literal (h : controlMode c = true) : BitVec.ofNat 8 (128 + controlCount c) = c := by
  rw [← toNat_of_literal h, BitVec.ofNat_toNat, BitVec.setWidth_eq]

/-! ### One record -/

/-- The encoder's control byte has the record's mode and count, so the decoder takes exactly the record's body (R93). -/
theorem decodeRecord_encode (tail : List Byte) (hi : i.wf = true) : decodeRecord (encode i ++ tail) = .ok (i, tail) := by
  cases i with
  | repeatRun n v =>
    have hn := Instr.wf_repeatRun.1 hi
    simp [encode, decodeRecord, hn]
  | literalRun n bs =>
    obtain ⟨hn, rfl⟩ := Instr.wf_literalRun.1 hi
    simp [encode, decodeRecord, hn]

/-- What is decoded encodes to the bytes it was read from, as its control byte has no other spelling (R86, R93). -/
theorem encode_append_of_decodeRecord (h : decodeRecord s = .ok (i, tail)) : encode i ++ tail = s := by
  cases s with
  | nil => simp [decodeRecord] at h
  | cons c rest =>
    rcases decodeRecord_cases h with ⟨hm, v, rfl, rfl⟩ | ⟨hm, bs, _, rfl, rfl⟩
    · simp [encode, ofNat_controlCount_of_repeat hm]
    · simp [encode, ofNat_controlCount_of_literal hm]

theorem wf_of_decodeRecord (h : decodeRecord s = .ok (i, tail)) : i.wf = true := by
  cases s with
  | nil => simp [decodeRecord] at h
  | cons c rest => exact (decodeRecord_wf h).1

/-- Bytes enough for the record their control byte opens decode to it (R87, R89). -/
theorem decodeRecord_of_le {rest : List Byte} (h : recordLength c ≤ 1 + rest.length) :
    ∃ i tail, decodeRecord (c :: rest) = .ok (i, tail) := by
  have hpos := recordLength_pos c
  obtain ⟨i, hd, _⟩ := decodeRecord_whole c (rest.take (recordLength c - 1)) (rest.drop (recordLength c - 1))
    (by rw [List.length_take]; omega)
  rw [List.take_append_drop] at hd
  exact ⟨i, _, hd⟩

/-- A control byte opens no record exactly when the bytes after it are too few (R91). -/
theorem decodeRecord_cons_eq_error {rest : List Byte} {e : DecodeError} :
    decodeRecord (c :: rest) = .error e ↔
      1 + rest.length < recordLength c ∧ e = if controlMode c then .truncatedLiteral else .truncatedRepeat := by
  by_cases h : 1 + rest.length < recordLength c
  · simp only [decodeRecord_short c rest h, Except.error.injEq, h, true_and, eq_comm]
  · obtain ⟨i, tail, hd⟩ := decodeRecord_of_le (not_lt.1 h)
    simp [hd, h]

/-- A record's length in the stream is that of its encoding (R80, R89). -/
theorem length_encode (hi : i.wf = true) : (encode i).length = i.length := by
  cases i with
  | repeatRun n v => exact (Laws.EncodedLength.repeatRun n v hi).1
  | literalRun n bs => exact (Laws.EncodedLength.literalRun n bs hi).1

/-- An encoding is a control byte and the body it asks for (R89). -/
theorem encode_eq_cons (hi : i.wf = true) : ∃ c body, encode i = c :: body ∧ 1 + body.length = recordLength c := by
  have hd := decodeRecord_encode [] hi
  rw [List.append_nil] at hd
  cases he : encode i with
  | nil => simp [he, decodeRecord] at hd
  | cons c body =>
    rw [he] at hd
    obtain ⟨_, _, _, _, hlen⟩ := decodeRecord_wf hd
    have hpos := recordLength_pos c
    exact ⟨c, body, rfl, by simp only [List.length_nil] at hlen; omega⟩

theorem count_le_of_wf (hi : i.wf = true) : i.count ≤ 127 := by
  cases i with
  | repeatRun n v => exact Instr.wf_repeatRun.1 hi
  | literalRun n bs => exact (Instr.wf_literalRun.1 hi).1

/-! ### A whole stream -/

@[simp] theorem parseFrom_nil (fuel pos : Nat) : parseFrom fuel [] pos = ⟨[], none⟩ := by
  cases fuel <;> rfl

/-- The parse stops at bytes that open no whole record (R90). -/
theorem parseFrom_of_error {rest : List Byte} {e : DecodeError} (h : decodeRecord (c :: rest) = .error e)
    (fuel pos : Nat) : parseFrom fuel (c :: rest) pos = ⟨[], some pos⟩ := by
  cases fuel with
  | zero => rfl
  | succ fuel => simp only [parseFrom, h]

/-- The parse takes a whole record and goes on after it (R90). -/
theorem parseFrom_of_ok (h : decodeRecord s = .ok (i, tail)) (fuel pos : Nat) :
    parseFrom (fuel + 1) s pos =
      ⟨i :: (parseFrom fuel tail (pos + i.length)).records, (parseFrom fuel tail (pos + i.length)).truncatedAt⟩ := by
  cases s with
  | nil => simp [decodeRecord] at h
  | cons c rest => simp only [parseFrom, h]

/-- Parsing the assembly of well-formed records gives them back; each record takes a byte at least, so the fuel
suffices (R93). -/
theorem parseFrom_assemble (hrs : ∀ r ∈ rs, r.wf = true) {fuel : Nat} (hfuel : (assemble rs).length ≤ fuel) (pos : Nat) :
    parseFrom fuel (assemble rs) pos = ⟨rs, none⟩ := by
  induction rs generalizing fuel pos with
  | nil => exact parseFrom_nil fuel pos
  | cons r rs ih =>
    obtain ⟨hr, hrs⟩ := List.forall_mem_cons.1 hrs
    obtain ⟨c, body, he, _⟩ := encode_eq_cons hr
    simp only [assemble, he, List.length_append, List.length_cons] at hfuel
    obtain ⟨fuel, rfl⟩ : ∃ f, fuel = f + 1 := ⟨fuel - 1, by omega⟩
    rw [assemble, parseFrom_of_ok (decodeRecord_encode _ hr), ih hrs (by omega)]

theorem parse_assemble (hrs : ∀ r ∈ rs, r.wf = true) : parse (assemble rs) = ⟨rs, none⟩ :=
  parseFrom_assemble hrs le_rfl 0

/-- Every parsed record is well-formed (R93). -/
theorem wf_of_mem_parseFrom (fuel : Nat) (s : List Byte) (pos : Nat) :
    ∀ r ∈ (parseFrom fuel s pos).records, r.wf = true := by
  induction fuel generalizing s pos with
  | zero => cases s <;> simp [parseFrom]
  | succ fuel ih =>
    cases s with
    | nil => simp
    | cons c rest =>
      cases hd : decodeRecord (c :: rest) with
      | error e => simp [parseFrom_of_error hd]
      | ok p =>
        rw [parseFrom_of_ok hd]
        exact List.forall_mem_cons.2 ⟨wf_of_decodeRecord hd, ih _ _⟩

theorem wf_of_mem_parse (s : List Byte) : ∀ r ∈ (parse s).records, r.wf = true :=
  wf_of_mem_parseFrom s.length s 0

/-- Everything a parse can answer: its records tile the stream, or tile what stands before one record that is cut short, and
the index named is where that begins (R90, R91). -/
theorem parseFrom_cases {fuel : Nat} (hfuel : s.length ≤ fuel) (pos : Nat) :
    ((parseFrom fuel s pos).truncatedAt = none ∧ s = assemble (parseFrom fuel s pos).records) ∨
      ((parseFrom fuel s pos).truncatedAt = some (pos + (assemble (parseFrom fuel s pos).records).length) ∧
        ∃ c rest, s = assemble (parseFrom fuel s pos).records ++ c :: rest ∧ 1 + rest.length < recordLength c) := by
  induction fuel generalizing s pos with
  | zero =>
    obtain rfl := List.length_eq_zero_iff.1 (Nat.le_zero.1 hfuel)
    exact .inl ⟨rfl, rfl⟩
  | succ fuel ih =>
    cases s with
    | nil => exact .inl ⟨rfl, rfl⟩
    | cons c rest =>
      cases hd : decodeRecord (c :: rest) with
      | error e =>
        rw [parseFrom_of_error hd]
        exact .inr ⟨rfl, c, rest, rfl, (decodeRecord_cons_eq_error.1 hd).1⟩
      | ok p =>
        obtain ⟨i, tail⟩ := p
        obtain ⟨hwf, _, _, _, hlen⟩ := decodeRecord_wf hd
        simp only [List.length_cons] at hfuel
        rw [parseFrom_of_ok hd, ← encode_append_of_decodeRecord hd]
        simp only [assemble, List.append_assoc, List.append_cancel_left_eq, List.length_append, length_encode hwf,
          ← Nat.add_assoc]
        exact ih (by omega) (pos + i.length)

/-- The same for a whole stream, by what the parse says of truncation (R90). -/
theorem eq_assemble_of_wellFormedStream (h : wellFormedStream s = true) : s = assemble (parse s).records := by
  rcases parseFrom_cases (s := s) le_rfl 0 with ⟨_, hs⟩ | ⟨hk, _⟩
  · exact hs
  · simp [wellFormedStream, parse, hk] at h

theorem eq_append_of_truncatedAt {k : Nat} (h : (parse s).truncatedAt = some k) :
    k = (assemble (parse s).records).length ∧
      ∃ c rest, s = assemble (parse s).records ++ c :: rest ∧ 1 + rest.length < recordLength c := by
  rcases parseFrom_cases (s := s) le_rfl 0 with ⟨hk, _⟩ | ⟨hk, hs⟩
  · cases hk.symm.trans h
  · rw [Nat.zero_add] at hk
    exact ⟨Option.some.inj (h.symm.trans hk), hs⟩

/-! ### A word of the opcode table -/

@[simp] theorem length_bytesOfNat (len w : Nat) : (bytesOfNat len w).length = len := by
  induction len generalizing w with
  | zero => rfl
  | succ len ih => simp [bytesOfNat, ih]

/-- A table word is as long as the longest record, so it opens a whole one whatever its bits are (R89). -/
theorem length_tableBytes (nbits w : Nat) : (tableBytes nbits w).length = 128 := length_bytesOfNat _ _

theorem decodeRecord_tableBytes (nbits w : Nat) : ∃ i tail, decodeRecord (tableBytes nbits w) = .ok (i, tail) := by
  obtain ⟨c, rest, hbytes⟩ := List.exists_cons_of_length_eq_add_one (length_tableBytes nbits w)
  have hlen := length_tableBytes nbits w
  have hle := recordLength_le c
  rw [hbytes, List.length_cons] at hlen
  rw [hbytes]
  exact decodeRecord_of_le (by omega)

theorem decodeTableWord_of_decodeRecord {nbits w : Nat} (h : decodeRecord (tableBytes nbits w) = .ok (i, tail)) :
    decodeTableWord nbits w = some i := by
  simp only [decodeTableWord, h]

/-! ### The expanded length -/

/-- The expansion has one byte for each count of its records (R92). -/
theorem length_expandAll (hrs : ∀ r ∈ rs, r.wf = true) : (expandAll rs).length = expandedLength rs := by
  induction rs with
  | nil => rfl
  | cons r rs ih =>
    obtain ⟨hr, hrs⟩ := List.forall_mem_cons.1 hrs
    simp only [expandAll, expandedLength, List.length_append, Machine.expansion_length_of_wf hr, ih hrs]

/-- A record yields at most 127 bytes for each two it takes (R92). -/
theorem count_le_half_length (hi : i.wf = true) : i.count ≤ 127 * (i.length / 2) := by
  have hn := count_le_of_wf hi
  cases i with
  | repeatRun n v => simpa [Instr.length] using hn
  | literalRun n bs =>
    simp only [Instr.count, Instr.length]
    omega

theorem expandedLength_le_half (hrs : ∀ r ∈ rs, r.wf = true) :
    expandedLength rs ≤ 127 * ((assemble rs).length / 2) := by
  induction rs with
  | nil => exact Nat.zero_le _
  | cons r rs ih =>
    obtain ⟨hr, hrs⟩ := List.forall_mem_cons.1 hrs
    have hhead := count_le_half_length hr
    have htail := ih hrs
    simp only [expandedLength, assemble, List.length_append, length_encode hr]
    omega

/-- Each `LITERAL` takes one byte more than it yields (R92). -/
theorem length_assemble_of_literals (hrs : ∀ r ∈ rs, r.wf = true) (hlit : ∀ r ∈ rs, ∃ n bs, r = .literalRun n bs) :
    (assemble rs).length = rs.length + expandedLength rs := by
  induction rs with
  | nil => rfl
  | cons r rs ih =>
    obtain ⟨⟨n, bs, rfl⟩, hlit'⟩ := List.forall_mem_cons.1 hlit
    obtain ⟨hr, hrs'⟩ := List.forall_mem_cons.1 hrs
    simp only [expandedLength, assemble, List.length_append, List.length_cons, length_encode hr, ih hrs' hlit', Instr.count,
      Instr.length]
    omega

/-- Records whose assembly is `len` bytes long and yields the most: `REPEAT 127`, and one empty `LITERAL` for an odd byte. -/
def richestRecords : Nat → List Instr
  | 0 => []
  | 1 => [.literalRun 0 []]
  | len + 2 => .repeatRun 127 0x00#8 :: richestRecords len

theorem wf_of_mem_richestRecords (len : Nat) : ∀ r ∈ richestRecords len, r.wf = true := by
  induction len using richestRecords.induct with
  | case1 => exact List.forall_mem_nil _
  | case2 => exact List.forall_mem_cons.2 ⟨rfl, List.forall_mem_nil _⟩
  | case3 len ih => exact List.forall_mem_cons.2 ⟨rfl, ih⟩

theorem length_assemble_richestRecords (len : Nat) : (assemble (richestRecords len)).length = len := by
  induction len using richestRecords.induct with
  | case1 => rfl
  | case2 => rfl
  | case3 len ih => simp [richestRecords, assemble, encode, ih]

theorem expandedLength_richestRecords (len : Nat) : expandedLength (richestRecords len) = 127 * (len / 2) := by
  induction len using richestRecords.induct with
  | case1 => rfl
  | case2 => rfl
  | case3 len ih =>
    simp only [richestRecords, expandedLength, Instr.count, ih]
    omega

/-! ### The obligations -/

/-- Settles O4. -/
theorem decodeOfEncodeIsTheRecord : Obligations.DecodeOfEncodeIsTheRecord :=
  fun _ tail hi => decodeRecord_encode tail hi

/-- Settles O7: a well-formed stream is the assembly of its parse, and that parses to the records it was assembled from. -/
theorem parseAndAssembleAreInverse : Obligations.ParseAndAssembleAreInverse :=
  ⟨fun _ hrs => parse_assemble hrs, fun s hs => ⟨(eq_assemble_of_wellFormedStream hs).symm, wf_of_mem_parse s⟩⟩

/-- Settles O2: the body of the length asked for makes a whole record, whose kind is the control byte's. -/
theorem everyControlByteOpensOneRecordKind : Obligations.EveryControlByteOpensOneRecordKind := by
  intro c body tail hlen
  obtain ⟨i, hd, _⟩ := decodeRecord_whole c body tail hlen
  have hle := controlCount_le c
  rcases decodeRecord_cases hd with ⟨hm, v, hbody, rfl⟩ | ⟨hm, bs, _, hbody, rfl⟩
  · have hc := toNat_of_repeat hm
    have hb : body = [v] := List.append_cancel_right hbody
    exact .inl ⟨by simp [and_modeMask, hm], by omega, by simp [recordLength, hm], v, hb, by rw [hd, hc]⟩
  · have hc := toNat_of_literal hm
    obtain rfl : body = bs := List.append_cancel_right hbody
    have hn : c.toNat - 128 = controlCount c := by omega
    exact .inr ⟨by simp [and_modeMask, hm], by omega, by simp [recordLength, hm, hn], by rw [hd, hn]⟩

/-- Settles O5. -/
theorem encodeOfDecodeIsTheBytes : Obligations.EncodeOfDecodeIsTheBytes :=
  fun _ _ _ h => ⟨wf_of_decodeRecord h, encode_append_of_decodeRecord h⟩

/-- Settles O6: no byte, or a control byte with too few bytes after it. -/
theorem decodeFailsOnlyForLength : Obligations.DecodeFailsOnlyForLength := by
  intro s e
  cases s with
  | nil => simpa [decodeRecord] using eq_comm
  | cons c rest =>
    rw [decodeRecord_cons_eq_error]
    simp

/-- Settles O8: the index is the length of the records' assembly, which cuts the stream in two there. -/
theorem parseStopsAtTheTruncatedRecord : Obligations.ParseStopsAtTheTruncatedRecord := by
  intro s k h
  obtain ⟨hk, c, rest, hs, hshort⟩ := eq_append_of_truncatedAt h
  refine ⟨?_, ?_, wf_of_mem_parse s, c, rest, ?_, hshort⟩
  · rw [congrArg List.length hs, hk, List.length_append, List.length_cons]
    omega
  · exact (congrArg (List.take k) hs).trans (List.take_left' hk.symm)
  · exact (congrArg (List.drop k) hs).trans (List.drop_left' hk.symm)

/-- Settles O9: the bounds of one record added up over the stream that its records tile. -/
theorem expandedLengthIsBounded : Obligations.ExpandedLengthIsBounded := by
  refine ⟨fun s hs => ?_, fun len => ?_⟩
  · have hwf := wf_of_mem_parse s
    have hlen := congrArg List.length (eq_assemble_of_wellFormedStream hs)
    refine ⟨length_expandAll hwf, ?_, fun hlit hpos => ?_⟩
    · rw [hlen]
      exact expandedLength_le_half hwf
    · have hsum := length_assemble_of_literals hwf hlit
      have hrecords : (parse s).records.length ≠ 0 := fun h0 => by
        rw [List.length_eq_zero_iff.1 h0] at hlen
        simp only [assemble, List.length_nil] at hlen
        omega
      omega
  · have hparse := parse_assemble (wf_of_mem_richestRecords len)
    exact ⟨assemble (richestRecords len), length_assemble_richestRecords len, by simp [wellFormedStream, hparse],
      by rw [hparse, expandedLength_richestRecords]⟩

/-- Settles O1: the fields as arithmetic and under masks; the record is the one `decodeRecord_cases` names. -/
theorem controlByteSplitsIntoModeAndCount : Obligations.ControlByteSplitsIntoModeAndCount := by
  intro c
  have hc := c.isLt
  refine ⟨toNat_eq_fields c, controlCount_le c, ?_, controlCount_eq c, ?_, (toNat_and_countMask c).symm,
    fun rest tail i hd => ?_⟩
  · rw [controlMode_eq, decide_eq_true_eq]
    omega
  · rw [and_modeMask]
    cases controlMode c <;> decide
  · obtain ⟨_, _, _, hexp, _⟩ := decodeRecord_wf hd
    rcases decodeRecord_cases hd with ⟨hm, v, _, rfl⟩ | ⟨hm, bs, _, _, rfl⟩
    · exact ⟨by simp [hm], by simp [hm], hexp⟩
    · exact ⟨by simp [hm], by simp [hm], hexp⟩

/-- Settles O3: each string is the encoding of its record and what follows it; the table words are those strings and zeros. -/
theorem wordsOfTheSpecDecode : Obligations.WordsOfTheSpecDecode := by
  refine ⟨?_, ?_, ?_, ?_, ?_, ?_, ?_, ?_, ?_⟩
  · exact decodeRecord_encode (i := .repeatRun 5 0x01#8) [] rfl
  · exact decodeRecord_encode (i := .repeatRun 3 0x00#8) [0x82#8, 0x01#8, 0x00#8] rfl
  · exact decodeRecord_encode (i := .literalRun 2 [0x01#8, 0x00#8]) [] rfl
  · exact decodeRecord_encode (i := .repeatRun 0 0x55#8) [] rfl
  · exact decodeRecord_encode (i := .repeatRun 127 0xAA#8) [] rfl
  · exact decodeRecord_encode (i := .literalRun 0 []) [] rfl
  · exact decodeRecord_encode (i := .literalRun 3 [0x01#8, 0x02#8, 0x03#8]) [] rfl
  · exact decodeTableWord_of_decodeRecord (decodeRecord_encode (i := .repeatRun 5 0x01#8) (bytesOfNat 126 0) rfl)
  · exact decodeTableWord_of_decodeRecord
      (decodeRecord_encode (i := .literalRun 2 [0x01#8, 0x00#8]) (bytesOfNat 125 0) rfl)

end Sys2Proof

namespace Sys2Proof.Machine

variable {i : Instr} {bytes tail : List Byte}

/-! ### A placed stream -/

@[simp] theorem State.loadStream_dec (s : State) (bytes : List Byte) :
    (s.loadStream bytes).dec = { i := 0, o := 0, len := bytes.length, cap := 127, status := .run, err := .none } := rfl

/-- `IN` of a placed stream holds that stream (log entry 16). -/
theorem State.loadStream_holds (s : State) (bytes : List Byte) : (s.loadStream bytes).Holds .inp 0 bytes := by
  refine State.holds_of_get fun j hj => State.peek_eq_some.2 ⟨s.pastEnd + j, ?_, Memory.read_writeBytes _ _ _ _ hj⟩
  exact Buffer.address_eq_some.2 ⟨_, rfl, (Nat.zero_add j).trans_lt hj, by rw [Nat.zero_add]⟩

theorem freeRun_of_dec_run {s : State} (h : s.dec.status = .run) : freeRun s = decStep s := if_pos h

theorem decStep_of_ne {s : State} (h : s.dec.i ≠ s.dec.len) : decStep s = decRecord s := if_neg h

/-- The step after placing a stream runs the record it begins with (R100, R101; log entry 16). -/
theorem step_loadStream (s : State) (h : decodeRecord bytes = .ok (i, tail)) :
    step (s.loadStream bytes) = exec i (s.loadStream bytes) := by
  have hwf := wf_of_decodeRecord h
  obtain ⟨c, body, he, hlen⟩ := encode_eq_cons hwf
  have hd : decodeRecord (c :: body) = .ok (i, []) := by
    rw [← he, ← List.append_nil (encode i)]
    exact decodeRecord_encode [] hwf
  obtain rfl : bytes = c :: body ++ tail := by rw [← he, encode_append_of_decodeRecord h]
  obtain ⟨⟨hc, hbody⟩, _⟩ := State.holds_append.1 (s.loadStream_holds (c :: body ++ tail))
  rw [step_of_no_turn rfl, freeRun_of_dec_run rfl, decStep_of_ne (by simp)]
  exact decRecord_runs hc hlen (by simp; omega) hbody hd

/-- A record that a placed stream begins with fits it, and `OUT` has room for the longest (R106; log entry 16). -/
theorem exec_loadStream (s : State) (hwf : i.wf = true) (hfit : i.length ≤ bytes.length) :
    ∃ t, exec i (s.loadStream bytes) = .next t ∧ t.dec.i = i.length ∧ t.dec.o = i.count ∧ t.dec.status = .run ∧
      t.Holds .out 0 i.expansion := by
  have hroom : (s.loadStream bytes).dec.o + i.count ≤ (s.loadStream bytes).dec.cap := by
    simpa using count_le_of_wf hwf
  obtain ⟨m, ht, _, _, holds⟩ := completeRecord_completes (s := s.loadStream bytes) (expansion_length_of_wf hwf)
    (by simpa using hfit) hroom fun _ => le_rfl
  rw [exec_eq_completeRecord]
  exact ⟨_, ht, Nat.zero_add _, Nat.zero_add _, rfl, holds.congr fun _ _ _ => rfl⟩

/-- Settles O52: a word's bytes are a placed stream of 128 bytes, and no record is longer. -/
theorem placedWordsRunAtOnce : Obligations.PlacedWordsRunAtOnce := by
  intro s nbits w
  obtain ⟨i, tail, hd⟩ := decodeRecord_tableBytes nbits w
  have hwf := wf_of_decodeRecord hd
  have hfit : i.length ≤ (tableBytes nbits w).length := by
    rw [← encode_append_of_decodeRecord hd, List.length_append, length_encode hwf]
    exact Nat.le_add_right _ _
  obtain ⟨t, ht, hregs⟩ := exec_loadStream s hwf hfit
  exact ⟨i, t, decodeTableWord_of_decodeRecord hd, hwf, step_loadStream s hd, ht, hregs⟩

end Sys2Proof.Machine
end

section
/-! PROOFS of 40_rle_records: what one record does at `exec` and at the decoder's step (R100 to R106), when a step is no unit's
(R100, R202), `decode(s, CAP)` taken record by record (R108 to R110), and that a whole run computes it (R108, R112). -/

namespace Sys2Proof

variable {i : Instr} {rs : List Instr}

/-! ### Streams, record by record -/

/-- Every stream is empty, or cut short in its first record, or a whole record and a stream after it (R90). -/
theorem stream_induction {P : List Byte → Prop} (nil : P [])
    (truncated : ∀ c rest, 1 + rest.length < recordLength c → P (c :: rest))
    (record : ∀ r tail, r.wf = true → P tail → P (encode r ++ tail)) (s : List Byte) : P s := by
  induction hn : s.length using Nat.strong_induction_on generalizing s with
  | _ n ih =>
    cases s with
    | nil => exact nil
    | cons c rest =>
      cases hd : decodeRecord (c :: rest) with
      | error e => exact truncated c rest (decodeRecord_cons_eq_error.1 hd).1
      | ok p =>
        obtain ⟨r, tail⟩ := p
        obtain ⟨hr, _, _, _, hlen⟩ := decodeRecord_wf hd
        rw [← encode_append_of_decodeRecord hd]
        exact record r tail hr (ih tail.length (by simp only [List.length_cons] at hn; omega) tail rfl)

theorem assemble_append (as bs : List Instr) : assemble (as ++ bs) = assemble as ++ assemble bs := by
  induction as with
  | nil => rfl
  | cons r as ih => simp only [List.cons_append, assemble, ih, List.append_assoc]

theorem expandedLength_append (as bs : List Instr) :
    expandedLength (as ++ bs) = expandedLength as + expandedLength bs := by
  induction as with
  | nil => exact (Nat.zero_add _).symm
  | cons r as ih => simp only [List.cons_append, expandedLength, ih, Nat.add_assoc]

/-- A record of count 0 produces nothing (R104, R106). -/
theorem expansion_eq_nil (hi : i.wf = true) (h0 : i.count = 0) : i.expansion = [] :=
  List.length_eq_zero_iff.1 ((Machine.expansion_length_of_wf hi).trans h0)

theorem Instr.length_pos (i : Instr) : 1 ≤ i.length := by
  cases i with
  | repeatRun n v => exact Nat.le_succ 1
  | literalRun n bs => exact Nat.le_add_right 1 n

/-- Records that produce anything have a last one that does (R109). -/
theorem exists_last_output (h : 1 ≤ expandedLength rs) :
    ∃ before r after, rs = before ++ r :: after ∧ 0 < r.count ∧ expandedLength after = 0 := by
  induction rs with
  | nil => simp [expandedLength] at h
  | cons r rs ih =>
    by_cases hrs : 1 ≤ expandedLength rs
    · obtain ⟨before, r', after, rfl, hlast⟩ := ih hrs
      exact ⟨r :: before, r', after, rfl, hlast⟩
    · simp only [expandedLength] at h
      exact ⟨[], r, rs, rfl, by omega, by omega⟩

end Sys2Proof

namespace Sys2Proof.Machine

variable {s t u : State} {i r : Instr} {rs : List Instr} {rest : List Turn} {bytes tail : List Byte} {c : Byte}
  {cap k : Nat} {d : DecRegs} {x : DecodeResult}

/-! ### What one record does -/

/-- `t` is `s` after the whole of record `i`: its expansion written at the cursor, both indices moved, nothing else changed
(R103, R105). -/
def State.Completes (s : State) (i : Instr) (t : State) : Prop :=
  s.OnlyDecAndMemory t ∧ t.dec = { s.dec with i := s.dec.i + i.length, o := s.dec.o + i.count } ∧
    t.Holds .out s.dec.o i.expansion ∧ s.SameMemoryBut t .out s.dec.o (s.dec.o + i.count)

theorem exec_truncated (hin : s.dec.i + i.length > s.dec.len) : exec i s = .next (s.raise .truncatedInput) :=
  (exec_eq_completeRecord i s).trans (completeRecord_truncated hin)

theorem exec_overflow (hin : s.dec.i + i.length ≤ s.dec.len) (hout : s.dec.o + i.count > s.dec.cap) :
    exec i s = .next (s.raise .outputOverflow) :=
  (exec_eq_completeRecord i s).trans (completeRecord_overflow hin hout)

theorem exec_completes (hi : i.wf = true) (hin : s.dec.i + i.length ≤ s.dec.len) (hout : s.dec.o + i.count ≤ s.dec.cap)
    (hcap : s.dec.cap ≤ Buffer.sizeOf s.binding.out) : ∃ t, exec i s = .next t ∧ s.Completes i t := by
  obtain ⟨m, h, _, same, holds⟩ := completeRecord_completes (expansion_length_of_wf hi) hin hout fun _ => hcap
  exact ⟨_, (exec_eq_completeRecord i s).trans h, rfl, rfl, holds.congr fun _ _ _ => rfl, same⟩

/-- A record of count 0 makes no access to `OUT` (R104, R106). -/
theorem exec_of_count_zero (hi : i.wf = true) (h0 : i.count = 0) (hin : s.dec.i + i.length ≤ s.dec.len)
    (ho : s.dec.o ≤ s.dec.cap) : exec i s = .next { s with dec := { s.dec with i := s.dec.i + i.length } } := by
  have hnone : s.recordError i.length 0 = none := (if_neg (not_lt.2 hin)).trans (if_neg (not_lt.2 ho))
  rw [exec_eq_completeRecord, expansion_eq_nil hi h0, h0, completeRecord, hnone]
  rfl

/-- Settles O10: the three outcomes of a record, taken at `REPEAT n, v`. -/
theorem repeatWritesItsValue : Obligations.RepeatWritesItsValue :=
  fun n v _ hn => ⟨exec_truncated (i := .repeatRun n v), exec_overflow (i := .repeatRun n v),
    exec_completes (Instr.wf_repeatRun.2 hn)⟩

/-- Settles O11: the three outcomes of a record, taken at `LITERAL n`. -/
theorem literalCopiesItsBytes : Obligations.LiteralCopiesItsBytes := by
  intro n bs s hn hbs
  rw [Nat.add_assoc]
  exact ⟨exec_truncated (i := .literalRun n bs), exec_overflow (i := .literalRun n bs),
    exec_completes (Instr.wf_literalRun.2 ⟨hn, hbs⟩)⟩

/-- Settles O12. -/
theorem zeroCountRecordsOnlyAdvance : Obligations.ZeroCountRecordsOnlyAdvance :=
  fun _ _ hi h0 hin ho => exec_of_count_zero hi h0 hin ho

/-! ### The decoder's step -/

/-- The decoder in `RUN` steps when its move is first in the list, and when no move is listed (log entry 4). -/
theorem step_eq_decStep (hnext : s.turns = .dec :: rest ∨ s.turns = [] ∧ rest = []) (hrun : s.dec.status = .run) :
    step s = decStep { s with turns := rest } := by
  rcases hnext with hturns | ⟨hturns, rfl⟩
  · exact (step_of_turn hturns).trans (if_pos hrun)
  · rw [step_of_no_turn hturns, freeRun_of_dec_run hrun, ← hturns]

theorem step_eq_decRecord (hnext : s.turns = .dec :: rest ∨ s.turns = [] ∧ rest = []) (hrun : s.dec.status = .run)
    (hlt : s.dec.i < s.dec.len) : step s = decRecord { s with turns := rest } :=
  (step_eq_decStep hnext hrun).trans (decStep_of_ne (s := { s with turns := rest }) hlt.ne)

theorem decRecord_truncated (hlt : s.dec.i < s.dec.len) (hc : s.peek .inp s.dec.i = some c)
    (hin : s.dec.i + recordLength c > s.dec.len) : decRecord s = .next (s.raise .truncatedInput) :=
  decRecord_raises hlt hc (if_pos hin)

theorem decRecord_overflow (hlt : s.dec.i < s.dec.len) (hc : s.peek .inp s.dec.i = some c)
    (hin : s.dec.i + recordLength c ≤ s.dec.len) (hout : s.dec.o + controlCount c > s.dec.cap) :
    decRecord s = .next (s.raise .outputOverflow) :=
  decRecord_raises hlt hc ((if_neg (not_lt.2 hin)).trans (if_pos hout))

/-- With the encoding of a record at the scan index, the decoder runs that record (R93, R100, R101). -/
theorem decRecord_of_holds_encode (hi : i.wf = true) (hin : s.dec.i + i.length ≤ s.dec.len)
    (hh : s.Holds .inp s.dec.i (encode i)) : decRecord s = exec i s := by
  obtain ⟨c, body, he, hlen⟩ := encode_eq_cons hi
  have hd := decodeRecord_encode [] hi
  have hlength := length_encode hi
  rw [List.append_nil, he] at hd
  rw [he] at hh hlength
  rw [List.length_cons] at hlength
  exact decRecord_runs hh.1 hlen (by omega) hh.2 hd

theorem decRecord_completes (hi : i.wf = true) (hin : s.dec.i + i.length ≤ s.dec.len)
    (hout : s.dec.o + i.count ≤ s.dec.cap) (hcap : s.dec.cap ≤ Buffer.sizeOf s.binding.out)
    (hh : s.Holds .inp s.dec.i (encode i)) : ∃ t, decRecord s = .next t ∧ s.Completes i t := by
  rw [decRecord_of_holds_encode hi hin hh]
  exact exec_completes hi hin hout hcap

/-- Settles O15: taking the move off the list changes no view of the stream. -/
theorem stepRunsTheDecodedRecord : Obligations.StepRunsTheDecodedRecord := by
  intro s rest c body i hnext hrun hh hlen hin hd
  have hpos := recordLength_pos c
  rw [step_eq_decRecord hnext hrun (by omega)]
  exact decRecord_runs (s := { s with turns := rest }) hh.1 hlen hin (hh.2.congr fun _ _ _ => rfl) hd

/-- The decoder is next to move in particular when no move is listed and the delta unit is not in `RUN`. -/
theorem dec_next_of_alone {p : Prop} (h : s.turns = .dec :: rest ∨ s.turns = [] ∧ rest = [] ∧ p) :
    s.turns = .dec :: rest ∨ s.turns = [] ∧ rest = [] :=
  h.imp_right fun ⟨hturns, hrest, _⟩ => ⟨hturns, hrest⟩

/-- Settles O19. -/
theorem endOfScanWritesDone : Obligations.EndOfScanWritesDone := by
  intro s rest hnext hrun hend
  rw [step_eq_decStep (dec_next_of_alone hnext) hrun]
  exact if_pos hend

/-- Settles O20: a move given to a unit outside `RUN` passes, and a free run finds no unit to move. -/
theorem nothingMovesOutsideRun : Obligations.NothingMovesOutsideRun := by
  refine ⟨fun s rest hdec hturns => ?_, fun s rest hund hturns => ?_, fun s hdec hund hturns => ?_⟩
  · exact (step_of_turn hturns).trans (if_neg hdec)
  · exact (step_of_turn hturns).trans (if_neg hund)
  · exact (step_of_no_turn hturns).trans ((if_neg hdec).trans (if_neg hund))

/-- Settles O16: the control byte opens `REPEAT c, v`, whose encoding is `c` and `v`. -/
theorem decoderStepOnARepeatRecord : Obligations.DecoderStepOnARepeatRecord := by
  intro s rest c hnext hrun hlt hc hbit
  have hmode : controlMode c = false := by rw [controlMode_eq]; exact decide_eq_false (not_le.2 hbit)
  have hcount := toNat_of_repeat hmode
  have hlen : recordLength c = 2 := by simp [recordLength, hmode]
  rw [step_eq_decRecord (dec_next_of_alone hnext) hrun hlt]
  refine ⟨fun hin => ?_, fun hin hout => ?_, fun hin hout hcap v hv => ?_⟩
  · exact decRecord_truncated (s := { s with turns := rest }) hlt hc (by rwa [hlen])
  · exact decRecord_overflow (s := { s with turns := rest }) hlt hc (by rwa [hlen]) (by rwa [← hcount])
  · have hh : ({ s with turns := rest } : State).Holds .inp s.dec.i (encode (.repeatRun c.toNat v)) := by
      rw [encode, BitVec.ofNat_toNat, BitVec.setWidth_eq]
      exact ⟨hc, hv, trivial⟩
    exact decRecord_completes (Instr.wf_repeatRun.2 (Nat.le_of_lt_succ hbit)) hin hout hcap hh

/-- Settles O17: the control byte opens `LITERAL n`, whose encoding is that byte and the bytes after it. -/
theorem decoderStepOnALiteralRecord : Obligations.DecoderStepOnALiteralRecord := by
  intro s rest n hnext hrun hlt hn hc
  have hlen : recordLength (BitVec.ofNat 8 (128 + n)) = 1 + n := by simp [recordLength, hn]
  rw [step_eq_decRecord (dec_next_of_alone hnext) hrun hlt, Nat.add_assoc]
  refine ⟨fun hin => ?_, fun hin hout => ?_, fun hin hout hcap bs hbs hh => ?_⟩
  · exact decRecord_truncated (s := { s with turns := rest }) hlt hc (by rwa [hlen])
  · exact decRecord_overflow (s := { s with turns := rest }) hlt hc (by rwa [hlen]) (by rwa [controlCount_literal hn])
  · have hh : ({ s with turns := rest } : State).Holds .inp s.dec.i (encode (.literalRun n bs)) :=
      ⟨hc, hh.congr fun _ _ _ => rfl⟩
    exact decRecord_completes (Instr.wf_literalRun.2 ⟨hn, hbs⟩) hin hout hcap hh

/-! ### `decode(s, CAP)`, record by record -/

/-- The result of a decode whose stream stands `n` bytes further on, `out` having been written before it (R110). -/
def DecodeResult.after (n : Nat) (out : List Byte) : DecodeResult → DecodeResult
  | .done out' => .done (out ++ out')
  | .failed e i out' => .failed e (n + i) (out ++ out')

@[simp] theorem DecodeResult.output_after (n : Nat) (out : List Byte) (d : DecodeResult) :
    (d.after n out).output = out ++ d.output := by
  cases d <;> rfl

theorem DecodeResult.after_after (n m : Nat) (out out' : List Byte) (d : DecodeResult) :
    (d.after m out').after n out = d.after (n + m) (out ++ out') := by
  cases d <;> simp [DecodeResult.after, Nat.add_assoc]

theorem decodeFrom_of_short {rest : List Byte} (h : 1 + rest.length < recordLength c) (fuel i : Nat) (out : List Byte) :
    decodeFrom cap fuel (c :: rest) i out = .failed .truncatedInput i out := by
  cases fuel with
  | zero => rfl
  | succ fuel =>
    cases hm : controlMode c with
    | true =>
      have hshort : rest.length < controlCount c := by simp only [recordLength, hm, if_true] at h; omega
      simp [decodeFrom, hm, hshort]
    | false =>
      obtain rfl : rest = [] := by simpa [recordLength, hm] using h
      simp [decodeFrom, hm]

/-- The record at the front overflows, or is put after the output so far; fuel that covers the stream covers what is left
(R108). -/
theorem decodeFrom_encode (hr : r.wf = true) (tail : List Byte) {fuel : Nat} (hfuel : (encode r ++ tail).length ≤ fuel)
    (i : Nat) (out : List Byte) :
    ∃ fuel', tail.length ≤ fuel' ∧ decodeFrom cap fuel (encode r ++ tail) i out =
      if out.length + r.count > cap then .failed .outputOverflow i out
      else decodeFrom cap fuel' tail (i + r.length) (out ++ r.expansion) := by
  have hpos := Instr.length_pos r
  rw [List.length_append, length_encode hr] at hfuel
  obtain ⟨fuel, rfl⟩ : ∃ f, fuel = f + 1 := ⟨fuel - 1, by omega⟩
  refine ⟨fuel, by omega, ?_⟩
  cases r with
  | repeatRun n v =>
    have hn := Instr.wf_repeatRun.1 hr
    simp [encode, decodeFrom, hn, Instr.count, Instr.length, Instr.expansion]
  | literalRun n bs =>
    obtain ⟨hn, rfl⟩ := Instr.wf_literalRun.1 hr
    simp [encode, decodeFrom, hn, Instr.count, Instr.length, Instr.expansion]

/-- Any fuel that covers the stream gives the same result, and what was scanned and written before only shifts it. -/
theorem decodeFrom_shift {fuel fuel' : Nat} (n : Nat) (pre : List Byte) (hfuel : bytes.length ≤ fuel)
    (hfuel' : bytes.length ≤ fuel') (i : Nat) (out : List Byte) :
    decodeFrom (pre.length + cap) fuel bytes (n + i) (pre ++ out) = (decodeFrom cap fuel' bytes i out).after n pre := by
  induction bytes using stream_induction generalizing fuel fuel' i out with
  | nil => cases fuel <;> cases fuel' <;> rfl
  | truncated c rest hshort =>
    rw [decodeFrom_of_short hshort, decodeFrom_of_short hshort]
    rfl
  | record r tail hr ih =>
    obtain ⟨f, hf, h⟩ := decodeFrom_encode (cap := pre.length + cap) hr tail hfuel (n + i) (pre ++ out)
    obtain ⟨f', hf', h'⟩ := decodeFrom_encode (cap := cap) hr tail hfuel' i out
    rw [h, h', List.length_append, Nat.add_assoc, Nat.add_assoc, List.append_assoc]
    by_cases hout : out.length + r.count > cap
    · rw [if_pos (by omega), if_pos hout]
      rfl
    · rw [if_neg (by omega), if_neg hout]
      exact ih hf hf' _ _

@[simp] theorem decodeStream_nil (cap : Nat) : decodeStream [] cap = .done [] := rfl

theorem decodeStream_of_short {rest : List Byte} (h : 1 + rest.length < recordLength c) (cap : Nat) :
    decodeStream (c :: rest) cap = .failed .truncatedInput 0 [] :=
  decodeFrom_of_short h _ 0 []

/-- A first record with more output than there is room for ends the decode (R108, R172). -/
theorem decodeStream_of_overflow (hr : r.wf = true) (tail : List Byte) (hout : cap < r.count) :
    decodeStream (encode r ++ tail) cap = .failed .outputOverflow 0 [] := by
  obtain ⟨_, _, h⟩ := decodeFrom_encode (cap := cap) hr tail le_rfl 0 []
  exact h.trans (if_pos (by simpa using hout))

/-- After a first record that fits, the rest is decoded with the room left (R108, R110 (b)). -/
theorem decodeStream_of_fits (hr : r.wf = true) (tail : List Byte) (hout : r.count ≤ cap) :
    decodeStream (encode r ++ tail) cap = (decodeStream tail (cap - r.count)).after r.length r.expansion := by
  obtain ⟨fuel, hfuel, h⟩ := decodeFrom_encode (cap := cap) hr tail le_rfl 0 []
  have hshift := decodeFrom_shift (cap := cap - r.count) r.length r.expansion hfuel le_rfl 0 []
  rw [expansion_length_of_wf hr, Nat.add_sub_cancel' hout, List.append_nil, Nat.add_zero] at hshift
  rw [Nat.zero_add] at h
  exact (h.trans (if_neg (by simpa using hout))).trans hshift

/-- Records that fit, and then any stream: that is decoded with the room they leave (R110 (b)). -/
theorem decodeStream_assemble_append (hrs : ∀ r ∈ rs, r.wf = true) (bytes : List Byte) (hcap : expandedLength rs ≤ cap) :
    decodeStream (assemble rs ++ bytes) cap =
      (decodeStream bytes (cap - expandedLength rs)).after (assemble rs).length (expandAll rs) := by
  induction rs generalizing cap with
  | nil =>
    show decodeStream bytes cap = (decodeStream bytes cap).after 0 []
    cases decodeStream bytes cap <;> simp [DecodeResult.after]
  | cons r rs ih =>
    obtain ⟨hr, hrs⟩ := List.forall_mem_cons.1 hrs
    simp only [expandedLength] at hcap
    rw [assemble, List.append_assoc, decodeStream_of_fits hr _ (by omega), ih hrs (by omega), DecodeResult.after_after,
      Nat.sub_sub, List.length_append, length_encode hr]
    rfl

/-- Streams with equal output for every room have it behind equal records too, whether these fit or not (R110). -/
theorem output_assemble_append_congr (hrs : ∀ r ∈ rs, r.wf = true) {bytes bytes' : List Byte}
    (h : ∀ cap, (decodeStream bytes cap).output = (decodeStream bytes' cap).output) (cap : Nat) :
    (decodeStream (assemble rs ++ bytes) cap).output = (decodeStream (assemble rs ++ bytes') cap).output := by
  induction rs generalizing cap with
  | nil => exact h cap
  | cons r rs ih =>
    obtain ⟨hr, hrs⟩ := List.forall_mem_cons.1 hrs
    rw [assemble, List.append_assoc, List.append_assoc]
    by_cases hout : r.count ≤ cap
    · rw [decodeStream_of_fits hr _ hout, decodeStream_of_fits hr _ hout, DecodeResult.output_after,
        DecodeResult.output_after, ih hrs]
    · rw [decodeStream_of_overflow hr _ (not_le.1 hout), decodeStream_of_overflow hr _ (not_le.1 hout)]

theorem output_of_count_zero (hr : r.wf = true) (h0 : r.count = 0) (bytes : List Byte) (cap : Nat) :
    (decodeStream (encode r ++ bytes) cap).output = (decodeStream bytes cap).output := by
  rw [decodeStream_of_fits hr bytes (by omega), DecodeResult.output_after, expansion_eq_nil hr h0, h0]
  rfl

/-- A decode that does not overflow is the same with more room (R110 (c)). -/
theorem decodeStream_of_more_room {cap' : Nat} (bytes : List Byte) (hle : cap ≤ cap') :
    decodeStream bytes cap' = decodeStream bytes cap ∨ ∃ i out, decodeStream bytes cap = .failed .outputOverflow i out := by
  induction bytes using stream_induction generalizing cap cap' with
  | nil => exact .inl rfl
  | truncated c rest hshort =>
    rw [decodeStream_of_short hshort, decodeStream_of_short hshort]
    exact .inl rfl
  | record r tail hr ih =>
    by_cases hout : r.count ≤ cap
    · rw [decodeStream_of_fits hr tail hout, decodeStream_of_fits hr tail (hout.trans hle)]
      rcases ih (Nat.sub_le_sub_right hle r.count) with h | ⟨i, out, h⟩
      · exact .inl (by rw [h])
      · exact .inr ⟨_, _, by rw [h]; rfl⟩
    · exact .inr ⟨_, _, decodeStream_of_overflow hr tail (not_le.1 hout)⟩

/-- Settles O47: neither outcome named is the overflow that more room could change. -/
theorem moreCapacityChangesNoOtherOutcome : Obligations.MoreCapacityChangesNoOtherOutcome := by
  intro bytes cap cap' hle
  rcases decodeStream_of_more_room bytes hle with h | ⟨i, out, h⟩
  · rw [h]
    exact ⟨fun _ => id, fun _ _ => id⟩
  · simp [h]

/-- Settles O48: a well-formed first part is the assembly of its records. -/
theorem decodeOfAConcatenation : Obligations.DecodeOfAConcatenation := by
  intro s1 s2 cap hs1 hcap
  have h := decodeStream_assemble_append (wf_of_mem_parse s1) s2 hcap
  rw [← eq_assemble_of_wellFormedStream hs1] at h
  rw [h]
  cases decodeStream s2 (cap - expandedLength (parse s1).records) <;> rfl

/-- Settles O49: the two records are those of count 0. -/
theorem noOperationRecordsChangeNoOutput : Obligations.NoOperationRecordsChangeNoOutput := by
  intro s1 s2 v cap hs1
  rw [eq_assemble_of_wellFormedStream hs1]
  have hrs := wf_of_mem_parse s1
  exact ⟨output_assemble_append_congr hrs (output_of_count_zero (r := .literalRun 0 []) rfl rfl s2) cap,
    output_assemble_append_congr hrs (output_of_count_zero (r := .repeatRun 0 v) rfl rfl s2) cap⟩

/-- Records with exactly the room they need are decoded to their end (R109). -/
theorem decodeStream_exact (hrs : ∀ r ∈ rs, r.wf = true) :
    decodeStream (assemble rs) (expandedLength rs) = .done (expandAll rs) := by
  have h := decodeStream_assemble_append hrs [] le_rfl
  simpa [DecodeResult.after] using h

/-- A record without room for its output overflows behind records that fit (R109, R172). -/
theorem decodeStream_overflow_after (hrs : ∀ r ∈ rs, r.wf = true) (hr : r.wf = true) (tail : List Byte)
    (hle : expandedLength rs ≤ cap) (hlt : cap < expandedLength rs + r.count) :
    decodeStream (assemble rs ++ (encode r ++ tail)) cap =
      .failed .outputOverflow (assemble rs).length (expandAll rs) := by
  rw [decodeStream_assemble_append hrs _ hle, decodeStream_of_overflow hr tail (by omega)]
  simp [DecodeResult.after]

/-- Settles O50: the last record with output is the one that one byte less leaves no room for. -/
theorem oneByteShortOverflowsAtTheLastOutput : Obligations.OneByteShortOverflowsAtTheLastOutput := by
  intro s hs
  have hrs := wf_of_mem_parse s
  have hs := eq_assemble_of_wellFormedStream hs
  generalize (parse s).records = rs at hrs hs ⊢
  subst hs
  refine ⟨decodeStream_exact hrs, fun hpos => ?_⟩
  obtain ⟨before, r, after, rfl, hcount, hafter⟩ := exists_last_output hpos
  obtain ⟨hbefore, hr⟩ := List.forall_mem_append.1 hrs
  refine ⟨before, r, after, rfl, hcount, hafter, ?_⟩
  rw [assemble_append, expandedLength_append]
  simp only [expandedLength, hafter]
  exact decodeStream_overflow_after hbefore (hr r List.mem_cons_self) _ (by omega) (by omega)

/-! ### A whole decode -/

/-- The registers in which a decode that starts at `d`, in the middle of a run, ends (R108). -/
def DecodeResult.regsFrom (x : DecodeResult) (d : DecRegs) : DecRegs :=
  match x with
  | .done out => { d with i := d.len, o := d.o + out.length, status := .done, err := .none }
  | .failed e i out => { d with i := d.i + i, o := d.o + out.length, status := .err, err := e }

/-- From the start of a stream these are the registers of R108. -/
theorem DecodeResult.regsFrom_eq_finalRegs (hi : d.i = 0) (ho : d.o = 0) : x.regsFrom d = x.finalRegs d := by
  cases x <;> simp [DecodeResult.regsFrom, DecodeResult.finalRegs, hi, ho]

theorem DecodeResult.regsFrom_after (n : Nat) (out : List Byte) :
    (x.after n out).regsFrom d = x.regsFrom { d with i := d.i + n, o := d.o + out.length } := by
  cases x <;> simp [DecodeResult.regsFrom, DecodeResult.after, Nat.add_assoc]

/-- The decoder stands in a truly launched run, no moves listed, with exactly `bytes` still to scan. -/
structure State.Decoding (s : State) (bytes : List Byte) : Prop where
  turns : s.turns = []
  status : s.dec.status = .run
  err : s.dec.err = .none
  scan : s.dec.i + bytes.length = s.dec.len
  cursor : s.dec.o ≤ s.dec.cap
  launched : s.DecLaunched
  stream : s.Holds .inp s.dec.i bytes

/-- The decoder's `k` steps from `s` end in `t`, with the registers and the output that `x` says and nothing else changed. -/
structure State.DecodesTo (s : State) (k : Nat) (t : State) (x : DecodeResult) : Prop where
  run : runFor k s = .next t
  running : ∀ j < k, ∃ u, runFor j s = .next u ∧ u.dec.status = .run
  only : s.OnlyDecAndMemory t
  regs : t.dec = x.regsFrom s.dec
  output : t.Holds .out s.dec.o x.output
  frame : s.SameMemoryBut t .out s.dec.o (s.dec.o + x.output.length)

/-- A last step, which writes registers only. -/
theorem State.decodesTo_last (hrun : s.dec.status = .run) (h : step s = .next { s with dec := x.regsFrom s.dec })
    (hout : x.output = []) : s.DecodesTo 1 { s with dec := x.regsFrom s.dec } x where
  run := runFor_succ h
  running j hj := ⟨s, by rw [Nat.lt_one_iff.1 hj]; rfl, hrun⟩
  only := rfl
  regs := rfl
  output := by rw [hout]; trivial
  frame _ _ := rfl

/-- A whole record's step in front of a run. -/
theorem State.DecodesTo.cons (hrun : s.dec.status = .run) (hr : r.wf = true) (hstep : step s = .next u)
    (hu : s.Completes r u) (h : u.DecodesTo k t x) : s.DecodesTo (k + 1) t (x.after r.length r.expansion) := by
  obtain ⟨honly, hdec, hholds, hsame⟩ := hu
  have hexp := expansion_length_of_wf hr
  have hub : u.binding = s.binding := by rw [honly]
  have htb : t.binding = u.binding := by rw [h.only]
  have hcursor : u.dec.o = s.dec.o + r.expansion.length := by rw [hdec, hexp]
  have hframe := h.frame
  have houtput := h.output
  rw [hcursor] at hframe houtput
  constructor
  case run => rw [runFor_succ hstep, h.run]
  case running =>
    intro j hj
    cases j with
    | zero => exact ⟨s, rfl, hrun⟩
    | succ j => rw [runFor_succ hstep]; exact h.running j (by omega)
  case only =>
    have h1 := h.only
    unfold State.OnlyDecAndMemory at h1 honly ⊢
    rw [h1, honly]
  case regs => rw [h.regs, hdec, DecodeResult.regsFrom_after, hexp]
  case output =>
    rw [DecodeResult.output_after]
    refine State.holds_append.2 ⟨hholds.congr fun j _ hj => ?_, houtput⟩
    exact hframe.peek_outside htb (.inl hj)
  case frame =>
    intro a ha
    rw [DecodeResult.output_after, List.length_append] at ha
    rw [hframe a fun j h1 h2 => ?_, hsame a fun j h1 h2 => ha j h1 (by omega)]
    rw [State.address_congr hub]
    exact ha j (by omega) (by omega)

theorem State.Decoding.step_eq (h : s.Decoding bytes) : step s = decStep s :=
  (step_of_no_turn h.turns).trans (freeRun_of_dec_run h.status)

theorem State.Decoding.step_inside (h : s.Decoding bytes) (hlt : s.dec.i < s.dec.len) : step s = decRecord s :=
  h.step_eq.trans (decStep_of_ne hlt.ne)

/-- A record at the front of the stream left lies inside the stream, and the step runs it (R100, R101). -/
theorem State.Decoding.step_record (hr : r.wf = true) (h : s.Decoding (encode r ++ tail)) :
    s.dec.i + r.length ≤ s.dec.len ∧ step s = exec r s := by
  have hpos := Instr.length_pos r
  have hscan := h.scan
  rw [List.length_append, length_encode hr] at hscan
  have hin : s.dec.i + r.length ≤ s.dec.len := by omega
  have hrecord := (State.holds_append.1 h.stream).1
  exact ⟨hin, (h.step_inside (by omega)).trans (decRecord_of_holds_encode hr hin hrecord)⟩

theorem State.DecLaunched.congr (h : s.DecLaunched) (hb : t.binding = s.binding) (hlen : t.dec.len = s.dec.len)
    (hcap : t.dec.cap = s.dec.cap) : t.DecLaunched where
  inFits := by rw [hlen, hb]; exact h.inFits
  outFits := by rw [hcap, hb]; exact h.outFits
  apart := by rw [hb]; exact h.apart

/-- After a record's step the decoder stands at the stream behind it, which is intact as `OUT` is apart from `IN` (R63). -/
theorem State.Decoding.after_record (hr : r.wf = true) (h : s.Decoding (encode r ++ tail))
    (hout : s.dec.o + r.count ≤ s.dec.cap) (hu : s.Completes r u) : u.Decoding tail := by
  obtain ⟨honly, hdec, _, hsame⟩ := hu
  have hb : u.binding = s.binding := by rw [honly]
  have hapart := h.launched.apart
  have hscan := h.scan
  have htail := (State.holds_append.1 h.stream).2
  rw [Buffer.overlap_comm] at hapart
  rw [List.length_append, length_encode hr, ← Nat.add_assoc] at hscan
  rw [length_encode hr] at htail
  constructor
  case turns => rw [honly]; exact h.turns
  case status => rw [hdec]; exact h.status
  case err => rw [hdec]; exact h.err
  case scan => rw [hdec]; exact hscan
  case cursor => rw [hdec]; exact hout
  case launched => exact h.launched.congr hb (by rw [hdec]) (by rw [hdec])
  case stream =>
    rw [hdec]
    exact htail.congr fun j _ _ => hsame.peek_apart (sp' := .inp) hb hapart j

/-- The run of a decoder over the stream it still has, by the records of that stream (R108, R112). -/
theorem State.Decoding.decodesTo (h : s.Decoding bytes) : ∃ k t, 1 ≤ k ∧ k ≤ bytes.length + 1 ∧
    s.DecodesTo k t (decodeStream bytes (s.dec.cap - s.dec.o)) := by
  induction bytes using stream_induction generalizing s with
  | nil =>
    refine ⟨1, _, le_rfl, le_rfl, State.decodesTo_last h.status ?_ rfl⟩
    have hend : s.dec.i = s.dec.len := h.scan
    rw [h.step_eq, decStep, if_pos hend]
    simp [DecodeResult.regsFrom, ← hend, ← h.err]
  | truncated c rest hshort =>
    rw [decodeStream_of_short hshort]
    have hscan := h.scan
    rw [List.length_cons] at hscan
    refine ⟨1, _, le_rfl, Nat.le_add_left _ _, State.decodesTo_last h.status ?_ rfl⟩
    have hlt : s.dec.i < s.dec.len := by omega
    exact (h.step_inside hlt).trans (decRecord_truncated hlt h.stream.1 (by omega))
  | record r tail hr ih =>
    obtain ⟨hin, hstep⟩ := h.step_record hr
    by_cases hout : s.dec.o + r.count ≤ s.dec.cap
    · obtain ⟨u, hexec, hu⟩ := exec_completes hr hin hout h.launched.outFits
      have hroom : u.dec.cap - u.dec.o = s.dec.cap - s.dec.o - r.count := by
        obtain ⟨_, hdec, _⟩ := hu
        rw [hdec, Nat.sub_sub]
      obtain ⟨k, t, _, hk, ht⟩ := ih (h.after_record hr hout hu)
      have hpos := Instr.length_pos r
      rw [hroom] at ht
      rw [decodeStream_of_fits hr tail (by omega), List.length_append, length_encode hr]
      exact ⟨k + 1, t, Nat.le_add_left _ _, by omega, ht.cons h.status hr (hstep.trans hexec) hu⟩
    · have hcur := h.cursor
      rw [decodeStream_of_overflow hr tail (by omega)]
      exact ⟨1, _, le_rfl, Nat.le_add_left _ _,
        State.decodesTo_last h.status (hstep.trans (exec_overflow hin (not_le.1 hout))) rfl⟩

/-- Settles O44: a start command leaves the decoder with the whole stream still to scan. -/
theorem decoderComputesDecode : Obligations.DecoderComputesDecode := by
  intro s bytes cap hturns hdec hlaunched hstream
  have hi : s.dec.i = 0 := by rw [hdec]
  have ho : s.dec.o = 0 := by rw [hdec]
  have hcap : s.dec.cap = cap := by rw [hdec]
  have hstart : s.Decoding bytes :=
    { turns := hturns
      status := by rw [hdec]
      err := by rw [hdec]
      scan := by rw [hdec]; exact Nat.zero_add _
      cursor := by rw [ho]; exact Nat.zero_le _
      launched := hlaunched
      stream := by rwa [hi] }
  obtain ⟨k, t, hpos, hk, hrun, hrunning, honly, hregs, houtput, hframe⟩ := hstart.decodesTo
  rw [ho, hcap, Nat.sub_zero] at hregs houtput hframe
  rw [Nat.zero_add] at hframe
  rw [DecodeResult.regsFrom_eq_finalRegs hi ho] at hregs
  exact ⟨k, t, hpos, hk, hrun, hrunning, honly, hregs, houtput, hframe⟩

end Sys2Proof.Machine
end

section
/-! PROOFS of 41_delta_reversal: the byte subtraction (R132), `undiff` as a function of the two buffers (R134, R135), one step
of the delta unit (R131, R133), and a whole reversal (R134, R137). -/

namespace Sys2Proof.Machine

variable {s t u : State} {rest : List Turn} {b e r : Byte} {B E R : List Byte} {j k lo mid hi : Nat} {sp : Space}

/-! ### The byte subtraction -/

theorem undiffByte_toNat (b e : Byte) : (undiffByte b e).toNat = (b.toNat + 256 - e.toNat) % 256 := by
  have he : e.toNat < 256 := e.isLt
  rw [undiffByte, BitVec.toNat_sub]
  congr 1
  omega

theorem undiffByte_eq_ofNat (b e : Byte) : undiffByte b e = BitVec.ofNat 8 ((b.toNat + 256 - e.toNat) % 256) := by
  rw [← undiffByte_toNat, BitVec.ofNat_toNat, BitVec.setWidth_eq]

/-- Signed operands give the same pattern: both sides are the signed difference modulo 256 (R132). -/
theorem undiffByte_eq_ofInt (b e : Byte) : undiffByte b e = BitVec.ofInt 8 (b.toInt - e.toInt) :=
  BitVec.eq_of_toInt_eq (BitVec.toInt_sub.trans (BitVec.toInt_ofInt _).symm)

/-- Subtraction adds the two's complement (R132). -/
theorem undiffByte_eq_add (b e : Byte) : undiffByte b e = b + (e ^^^ 0xFF#8) + 1#8 := by
  have hnot : e ^^^ 0xFF#8 = ~~~e := BitVec.xor_allOnes
  rw [hnot, add_assoc, ← BitVec.neg_eq_not_add, ← sub_eq_add_neg, undiffByte]

/-- Base minus encoded undoes itself (R135). -/
theorem undiffByte_undiffByte (b e : Byte) : undiffByte b (undiffByte b e) = e := sub_sub_self b e

/-- Settles O23: the two unsigned cases are the subtraction modulo 256 on either side of the wrap. -/
theorem byteSubtractionWraps : Obligations.ByteSubtractionWraps := by
  intro b e
  have hb : b.toNat < 256 := b.isLt
  refine ⟨fun hle => ?_, fun hlt => ?_, undiffByte_eq_ofInt b e, undiffByte_eq_add b e⟩
  · rw [undiffByte_toNat]
    omega
  · rw [undiffByte_toNat]
    omega

/-! ### `undiff(B, E)` -/

theorem undiff_eq_zipWith : undiff B E = List.zipWith undiffByte B E := by
  induction B, E using undiff.induct with
  | case1 b bs e es ih => rw [undiff, ih, List.zipWith_cons_cons]
  | case2 B E hne =>
    cases B with
    | nil => rfl
    | cons b bs =>
      cases E with
      | nil => rfl
      | cons e es => exact (hne b bs e es rfl rfl).elim

theorem undiff_length (hlen : B.length = E.length) : (undiff B E).length = E.length := by
  rw [undiff_eq_zipWith, List.length_zipWith, hlen, min_self]

theorem undiff_getElem (hB : k < B.length) (hE : k < E.length) (h : k < (undiff B E).length) :
    (undiff B E)[k] = undiffByte B[k] E[k] := by
  simp only [undiff_eq_zipWith, List.getElem_zipWith]

theorem undiff_undiff (hlen : B.length = E.length) : undiff B (undiff B E) = E := by
  have hlen' := undiff_length hlen
  refine List.ext_getElem ((undiff_length (hlen.trans hlen'.symm)).trans hlen') fun k hk hE => ?_
  rw [undiff_getElem (hlen ▸ hE) (hlen' ▸ hE) hk, undiff_getElem (hlen ▸ hE) hE, undiffByte_undiffByte]

/-- Settles O24: the reversal is an involution; the other producer's sign is arithmetic modulo 256. -/
theorem reversalIsSelfInverse : Obligations.ReversalIsSelfInverse := by
  refine ⟨fun B E hlen => ⟨undiff_length hlen, undiff_undiff hlen⟩, fun b p => ⟨sub_sub_self b p, ?_⟩⟩
  have htwo : (2#8 : Byte) * b = b + b := two_mul b
  rw [undiffByte, htwo, sub_sub_eq_add_sub]

/-! ### One step -/

theorem undStep_of_eq (h : s.und.j = s.und.n) : undStep s = .next { s with und := { s.und with status := .done } } :=
  if_pos h

theorem undStep_of_ne (h : s.und.j ≠ s.und.n) : undStep s = undElement s := if_neg h

/-- The delta unit in `RUN` steps when its move is first in the list, and when no move is listed and the decoder is not in
`RUN`. -/
theorem step_eq_undStep (hnext : s.turns = .und :: rest ∨ s.turns = [] ∧ rest = [] ∧ s.dec.status ≠ .run)
    (hrun : s.und.status = .run) : step s = undStep { s with turns := rest } := by
  rcases hnext with hturns | ⟨hturns, rfl, hdec⟩
  · exact (step_of_turn hturns).trans (if_pos hrun)
  · rw [step_of_no_turn hturns, ← hturns]
    exact (if_neg hdec).trans (if_pos hrun)

/-- `t` is `s` after one element: `r` at the index of `ENC` the unit stood at, the index moved, nothing else changed
(R131). -/
def State.ReplacesElement (s : State) (r : Byte) (t : State) : Prop :=
  s.OnlyUndAndMemory t ∧ t.und = { s.und with j := s.und.j + 1 } ∧ t.peek .enc s.und.j = some r ∧
    s.SameMemoryBut t .enc s.und.j (s.und.j + 1)

theorem undStep_replaces (hj : s.und.j < s.und.n) (hb : s.peek .base s.und.j = some b)
    (he : s.peek .enc s.und.j = some e) : ∃ t, undStep s = .next t ∧ s.ReplacesElement (undiffByte b e) t := by
  obtain ⟨a, ha, h⟩ := undElement_completes hj hb he
  have hstep := (undStep_of_ne hj.ne).trans h
  obtain ⟨_, hframe⟩ := undStep_frame hstep
  exact ⟨_, hstep, rfl, rfl, State.peek_eq_some.2 ⟨a, ha, Memory.read_write_same _ a _⟩, hframe⟩

/-- Settles O22. -/
theorem endOfReversalWritesDone : Obligations.EndOfReversalWritesDone := by
  intro s rest hnext hrun hend
  rw [step_eq_undStep hnext hrun]
  exact undStep_of_eq (s := { s with turns := rest }) hend

/-- Settles O21: taking the move off the list changes no view of the buffers. -/
theorem undiffReplacesOneElement : Obligations.UndiffReplacesOneElement := by
  intro s rest hnext hrun
  refine ⟨endOfReversalWritesDone s rest hnext hrun, fun b e hj hb he => ?_⟩
  rw [step_eq_undStep hnext hrun, ← undiffByte_eq_ofNat]
  exact undStep_replaces (s := { s with turns := rest }) hj hb he

/-! ### A whole reversal -/

/-- One more step at the end of a run. -/
theorem runFor_succ_last (h : runFor k s = .next t) (hstep : step t = .next u) : runFor (k + 1) s = .next u := by
  induction k generalizing s with
  | zero =>
    obtain rfl := Host.Outcome.next.inj h
    exact runFor_succ hstep
  | succ k ih =>
    cases hfirst : step s with
    | next v =>
      rw [runFor_succ hfirst] at h ⊢
      exact ih h
    | fault f => simp [runFor, hfirst] at h
    | refused r => simp [runFor, hfirst] at h

/-- Two adjacent ranges written one after the other are one range written. -/
theorem State.SameMemoryBut.append (h : s.SameMemoryBut t sp lo mid) (h' : t.SameMemoryBut u sp mid hi)
    (hb : t.binding = s.binding) (hlo : lo ≤ mid) (hhi : mid ≤ hi) : s.SameMemoryBut u sp lo hi := by
  intro a ha
  have hfirst : t.mem.read a = s.mem.read a := h a fun k h1 h2 => ha k h1 (h2.trans_le hhi)
  have hsecond : u.mem.read a = t.mem.read a := h' a fun k h1 h2 => by
    rw [State.address_congr hb]
    exact ha k (hlo.trans h1) h2
  exact hsecond.trans hfirst

/-- The delta unit's first `j` steps from `s` end in `t`, with the first `j` bytes of `R` in `ENC` and nothing else changed
but the element index. -/
structure State.ReversesTo (s : State) (R : List Byte) (j : Nat) (t : State) : Prop where
  run : runFor j s = .next t
  only : s.OnlyUndAndMemory t
  regs : t.und = { s.und with j := j }
  output : t.Holds .enc 0 (R.take j)
  frame : s.SameMemoryBut t .enc 0 j

theorem State.reversesTo_zero (R : List Byte) (hj : s.und.j = 0) : s.ReversesTo R 0 s where
  run := rfl
  only := rfl
  regs := by rw [← hj]
  output := trivial
  frame _ _ := rfl

/-- One element's step at the end of a reversal. -/
theorem State.ReversesTo.succ (h : s.ReversesTo R j t) (hj : j < R.length) (hstep : step t = .next u)
    (hu : t.ReplacesElement R[j] u) : s.ReversesTo R (j + 1) u := by
  obtain ⟨honly, hund, hpeek, hsame⟩ := hu
  have htj : t.und.j = j := by rw [h.regs]
  have htb : t.binding = s.binding := by rw [h.only]
  have hub : u.binding = t.binding := by rw [honly]
  rw [htj] at hpeek hsame
  constructor
  case run => exact runFor_succ_last h.run hstep
  case only =>
    have hold := h.only
    unfold State.OnlyUndAndMemory at hold honly ⊢
    rw [honly, hold]
  case regs => rw [hund, h.regs]
  case output =>
    have hlen : (R.take j).length = j := List.length_take_of_le hj.le
    rw [List.take_succ_eq_append_getElem hj]
    refine State.holds_append.2 ⟨h.output.congr fun k _ hk => ?_, ?_⟩
    · exact hsame.peek_outside hub (.inl (by omega))
    · rw [hlen, Nat.zero_add]
      exact ⟨hpeek, trivial⟩
  case frame => exact h.frame.append hsame htb j.zero_le j.le_succ

/-- The delta unit stands at the beginning of a reversal of `E` over `B`, alone to move, its two buffers apart. -/
structure State.Reversing (s : State) (B E : List Byte) : Prop where
  turns : s.turns = []
  decStopped : s.dec.status ≠ .run
  status : s.und.status = .run
  start : s.und.j = 0
  baseLength : B.length = s.und.n
  encLength : E.length = s.und.n
  apart : Buffer.overlap s.binding.base s.binding.enc = false
  base : s.Holds .base 0 B
  enc : s.Holds .enc 0 E

section
variable (h : s.Reversing B E)
include h

/-- After some elements the delta unit is still the one to move. -/
theorem State.Reversing.step_eq (ht : s.ReversesTo R j t) : step t = undStep t := by
  have hturns : t.turns = [] := by rw [ht.only]; exact h.turns
  have hdec : t.dec.status ≠ .run := by rw [ht.only]; exact h.decStopped
  have hrun : t.und.status = .run := by rw [ht.regs]; exact h.status
  rw [step_eq_undStep (.inr ⟨hturns, rfl, hdec⟩) hrun, ← hturns]

/-- What the elements before have written leaves the next two operands as they were: `BASE` lies apart from `ENC`, and of
`ENC` only lower indices were written (R63, R131). -/
theorem State.Reversing.operands (ht : s.ReversesTo R j t) (hB : j < B.length) (hE : j < E.length) :
    t.peek .base j = some B[j] ∧ t.peek .enc j = some E[j] := by
  have hb : t.binding = s.binding := by rw [ht.only]
  have hapart := h.apart
  have hbase := h.base.get j hB
  have henc := h.enc.get j hE
  rw [Buffer.overlap_comm] at hapart
  rw [Nat.zero_add] at hbase henc
  exact ⟨(ht.frame.peek_apart (sp' := .base) hb hapart j).trans hbase,
    (ht.frame.peek_outside hb (.inr le_rfl)).trans henc⟩

/-- The first `j` elements, for every `j` up to the length (R134). -/
theorem State.Reversing.reversesTo (hj : j ≤ E.length) : ∃ t, s.ReversesTo (undiff B E) j t := by
  induction j with
  | zero => exact ⟨s, State.reversesTo_zero _ h.start⟩
  | succ j ih =>
    obtain ⟨t, ht⟩ := ih (Nat.le_of_succ_le hj)
    have hlen : B.length = E.length := h.baseLength.trans h.encLength.symm
    have hB : j < B.length := by omega
    have hR : j < (undiff B E).length := by rw [undiff_length hlen]; exact hj
    have htj : t.und.j = j := by rw [ht.regs]
    have htn : t.und.n = E.length := by rw [ht.regs, h.encLength]
    obtain ⟨hb, he⟩ := h.operands ht hB hj
    obtain ⟨u, hstep, hu⟩ := undStep_replaces (s := t) (by omega) (by rw [htj]; exact hb) (by rw [htj]; exact he)
    rw [← undiff_getElem hB hj hR] at hu
    exact ⟨u, ht.succ hR ((h.step_eq ht).trans hstep) hu⟩

end

/-- Settles O45: `N` steps reverse the `N` elements, and one more writes `DONE`. -/
theorem deltaUnitComputesUndiff : Obligations.DeltaUnitComputesUndiff := by
  intro s B E hturns hdec hlen hund hlaunched hB hE
  have hstart : s.Reversing B E :=
    { turns := hturns
      decStopped := hdec
      status := by rw [hund]
      start := by rw [hund]
      baseLength := by rw [hund, hlen]
      encLength := by rw [hund]
      apart := hlaunched.apart
      base := hB
      enc := hE }
  obtain ⟨t, ht⟩ := hstart.reversesTo le_rfl
  have htund : t.und = { j := E.length, n := E.length, status := .run, err := .none } := by rw [ht.regs, hund]
  have hlast : step t = .next { t with und := { t.und with status := .done } } :=
    (hstart.step_eq ht).trans (undStep_of_eq (by rw [htund]))
  have honly := ht.only
  have houtput := ht.output
  rw [List.take_of_length_le (undiff_length hlen).le] at houtput
  refine ⟨_, runFor_succ_last ht.run hlast, fun j hj => ?_, ?_, by rw [htund], houtput.congr fun _ _ _ => rfl, ht.frame⟩
  · obtain ⟨u, hu⟩ := hstart.reversesTo hj
    exact ⟨u, hu.run, by rw [hu.regs, hund]⟩
  · unfold State.OnlyUndAndMemory at honly ⊢
    rw [honly]

end Sys2Proof.Machine
end

section
/-! PROOFS of 42_host_commands: what the two start commands do (R150, R151, R155, R156, R173), the host's reads, bindings and
drives as steps (R52, R152, R211), and the chained use of the two units (R160). -/

namespace Sys2Proof.Machine

variable {s t : State} {rest : List Turn} {K W : Buffer}

/-! ### The start commands -/

theorem decStart_of_run (hr : s.dec.status = .run) : decStart s = .next s := if_pos hr

theorem undStart_of_run (hr : s.und.status = .run) : undStart s = .next s := if_pos hr

/-- A conforming `DEC.START` outside `RUN` begins a decode (R150, R204). -/
theorem decStart_begins (hr : s.dec.status ≠ .run) (hproblem : s.decLaunchProblem = none) :
    decStart s = .next { s with
      dec := { i := 0, o := 0, len := s.ports.decLen, cap := s.ports.decCap, status := .run, err := .none }
      decHeld := true } := by
  simp only [decStart, if_neg hr, hproblem]

/-- Unequal lengths are found before any buffer is looked at (R173). -/
theorem undStart_mismatch (hr : s.und.status ≠ .run) (hlen : s.ports.undBlen ≠ s.ports.undElen) :
    undStart s = .next { s with und := { j := 0, n := 0, status := .err, err := .lengthMismatch }, undHeld := true } := by
  simp only [undStart, if_neg hr, if_pos hlen]

/-- A conforming `UND.START` on equal lengths outside `RUN` begins a reversal (R155, R204). -/
theorem undStart_begins (hr : s.und.status ≠ .run) (hlen : s.ports.undBlen = s.ports.undElen)
    (hproblem : s.undLaunchProblem = none) :
    undStart s = .next { s with
      und := { j := 0, n := s.ports.undBlen, status := .run, err := .none }
      undHeld := true } := by
  simp only [undStart, if_neg hr, if_neg (not_not.2 hlen), hproblem]

/-- Settles O26: in `RUN` a start command answers the state it was given. -/
theorem startDuringRunIsLost : Obligations.StartDuringRunIsLost :=
  ⟨fun s rest hturns hr => (step_of_turn hturns).trans (decStart_of_run (s := { s with turns := rest }) hr),
    fun s rest hturns hr => (step_of_turn hturns).trans (undStart_of_run (s := { s with turns := rest }) hr)⟩

/-- Settles O25: the premises are all that the launch check asks. -/
theorem decStartBeginsADecode : Obligations.DecStartBeginsADecode := by
  intro s rest hturns
  refine ⟨startDuringRunIsLost.1 s rest hturns, fun hr hin hout happart hunits => ?_⟩
  have hproblem : ({ s with turns := rest } : State).decLaunchProblem = none :=
    State.decLaunchProblem_eq_none.2 ⟨hin, hout, happart, hunits⟩
  exact (step_of_turn hturns).trans (decStart_begins (s := { s with turns := rest }) hr hproblem)

/-- Settles O27: the length check comes first, and the other premises are all that the launch check asks. -/
theorem undStartComparesTheLengths : Obligations.UndStartComparesTheLengths := by
  intro s rest hturns
  refine ⟨startDuringRunIsLost.2 s rest hturns, fun hr hlen => ?_, fun hr hlen hbase henc hapart hunits => ?_⟩
  · exact (step_of_turn hturns).trans (undStart_mismatch (s := { s with turns := rest }) hr hlen)
  · have hproblem : ({ s with turns := rest } : State).undLaunchProblem = none :=
      State.undLaunchProblem_eq_none.2 ⟨hbase, henc, hapart, hunits⟩
    exact (step_of_turn hturns).trans (undStart_begins (s := { s with turns := rest }) hr hlen hproblem)

/-! ### The other moves of the chained use -/

/-- Reading the decoder's status logs its code, and outside `RUN` ends the hand-over (R152, R207). -/
theorem step_of_readPort_decStatus (hturns : s.turns = .host (.readPort .decStatus) :: rest) :
    step s = .next { s with
      turns := rest
      decHeld := s.decHeld && decide (s.dec.status = .run)
      seen := s.dec.status.code.toNat :: s.seen } := step_of_turn hturns

/-- A port whose unit does not hold its buffers is bound anew (R52, R207). -/
theorem step_of_bind {sp : Space} {w : Option Buffer} (hturns : s.turns = .host (.bind sp w) :: rest)
    (hfree : s.spaceHeld sp = false) : step s = .next { s with turns := rest, binding := s.binding.set w sp } :=
  (step_of_turn hturns).trans (doBind_eq_next.2 ⟨by cases sp <;> exact hfree, rfl⟩)

/-- An input port may be driven at any time (R211). -/
theorem step_of_drive {p : InPort} {v : Nat} (hturns : s.turns = .host (.drive p v) :: rest) :
    step s = .next { s with turns := rest, ports := s.ports.set v p } := step_of_turn hturns

/-- What two indices hold depends on the buffers bound and on memory only. -/
theorem State.peek_congr {sp sp' : Space} (hwindow : t.window sp' = s.window sp) (hmem : t.mem = s.mem) (k : Nat) :
    t.peek sp' k = s.peek sp k := by
  simp only [State.peek, State.address, hwindow, hmem]

/-! ### The chained use -/

/-- The host's preparation of a reversal after a decode (R160, steps 3 and 5): the status read, the base and the work buffer
bound to the delta unit, the two lengths driven. Only the start command is still to come. -/
def State.chain (s : State) (K W : Buffer) (rest : List Turn) : State :=
  { s with
    turns := .host .undStart :: rest
    binding := { s.binding with base := some K, enc := some W }
    ports := { s.ports with undBlen := K.size, undElen := s.dec.o }
    decHeld := s.decHeld && decide (s.dec.status = .run)
    seen := s.dec.status.code.toNat :: s.seen }

/-- The preparation goes through while the delta unit holds no buffers: a step for each of its five moves. -/
theorem runFor_chain (k : Nat) (hfree : s.undHeld = false)
    (hturns : s.turns = .host (.readPort .decStatus) :: .host (.bind .base (some K)) :: .host (.bind .enc (some W)) ::
      .host (.drive .undBlen K.size) :: .host (.drive .undElen s.dec.o) :: .host .undStart :: rest) :
    runFor (k + 5) s = runFor k (s.chain K W rest) :=
  Eq.trans (runFor_succ (step_of_readPort_decStatus hturns)) <|
    Eq.trans (runFor_succ (step_of_bind (sp := .base) rfl hfree)) <|
    Eq.trans (runFor_succ (step_of_bind (sp := .enc) rfl hfree)) <|
    Eq.trans (runFor_succ (step_of_drive (p := .undBlen) rfl)) <|
    runFor_succ (step_of_drive (p := .undElen) (v := s.dec.o) rfl)

/-- Settles O51: five moves prepare the reversal, and the sixth compares the base's length with the decoded one. The decoder
is not in `RUN`, so only the delta unit's own buffers must be apart. -/
theorem chainedUseStartsTheReversal : Obligations.ChainedUseStartsTheReversal := by
  intro s rest K W hdone hund hfree hout hfits hapart hturns
  have hcode : s.dec.status.code.toNat = 2 := by rw [hdone]; rfl
  have hseen : s.dec.status.code.toNat :: s.seen = 2 :: s.seen := by rw [hcode]
  have hprepared := runFor_chain (K := K) (W := W) (rest := rest) 1 hfree hturns
  obtain ⟨-, hmismatch, hbegins⟩ := undStartComparesTheLengths (s.chain K W rest) rest rfl
  by_cases hlen : K.size = s.dec.o
  · have hdec : s.dec.status ≠ .run := by simp [hdone]
    have hstart := hbegins hund hlen le_rfl hfits hapart fun hrun => absurd hrun hdec
    refine ⟨_, hprepared.trans (runFor_succ hstart), rfl, rfl, rfl, hseen, fun _ => ⟨?_, ?_, ?_⟩, fun hne => absurd hlen hne⟩
    · simp only [State.chain, hlen]
    · exact { baseFits := le_rfl, encFits := hlen.trans_le hfits, apart := hapart }
    · exact State.peek_congr (sp := .out) (sp' := .enc) hout.symm rfl
  · have hstart := hmismatch hund hlen
    exact ⟨_, hprepared.trans (runFor_succ hstart), rfl, rfl, rfl, hseen, fun heq => absurd heq hlen, fun _ => rfl⟩

end Sys2Proof.Machine
end

section
/-! PROOFS of 60_exceptions: what a decoder step that ends in `ERR` raised, and why (R170 to R177), which outcome a decode has,
from the parse of its stream and the capacity (R178, R109), and that a unit's registers stay outside `RUN` (R180, R206). -/

namespace Sys2Proof.Machine

variable {s t : State} {x : Turn} {c : Command} {bytes : List Byte} {rs before after : List Instr} {r : Instr} {cap k : Nat}

/-! ### Errors -/

/-- Settles O18: the end of the scan and a record that fits leave another status, and each error comes from its own check. -/
theorem raisedErrorsHaveTheirCause : Obligations.RaisedErrorsHaveTheirCause := by
  intro s t hrun ho h herr
  rcases decStep_cases h with ⟨_, rfl⟩ | ⟨_, h⟩
  · cases herr
  · obtain ⟨c, hlt, hc, ⟨rfl, hin⟩ | ⟨rfl, hin, hout⟩ | ⟨_, _, _, _, _, _, rfl, _⟩⟩ := decRecord_cases h
    · exact ⟨hlt, c, hc, .inl ⟨hin, rfl⟩⟩
    · exact ⟨hlt, c, hc, .inr ⟨hin, hout, by omega, rfl⟩⟩
    · cases hrun.symm.trans herr

/-! ### The outcome of a decode -/

/-- Records with more output than there is room for have a first one that does not fit (R109). -/
theorem exists_first_overflow (h : cap < expandedLength rs) :
    ∃ before r after, rs = before ++ r :: after ∧ expandedLength before ≤ cap ∧
      cap < expandedLength before + r.count := by
  induction rs generalizing cap with
  | nil => simp [expandedLength] at h
  | cons r rs ih =>
    simp only [expandedLength] at h
    by_cases hr : r.count ≤ cap
    · obtain ⟨before, r', after, rfl, hle, hlt⟩ := ih (cap := cap - r.count) (by omega)
      exact ⟨r :: before, r', after, rfl, by simp only [expandedLength]; omega, by simp only [expandedLength]; omega⟩
    · exact ⟨[], r, rs, rfl, Nat.zero_le _, by simp only [expandedLength]; omega⟩

/-- The complete records of a stream stand at its front, whatever follows them (R90). -/
theorem exists_eq_assemble_append (bytes : List Byte) : ∃ tail, bytes = assemble (parse bytes).records ++ tail := by
  cases ht : (parse bytes).truncatedAt with
  | none => exact ⟨[], by simpa using eq_assemble_of_wellFormedStream (Option.isNone_iff_eq_none.2 ht)⟩
  | some k =>
    obtain ⟨_, c, rest, hbytes, _⟩ := eq_append_of_truncatedAt ht
    exact ⟨c :: rest, hbytes⟩

/-- A stream of whole records that fit is decoded to its end (R109 (a)). -/
theorem decodeStream_of_whole (ht : (parse bytes).truncatedAt = none) (hcap : expandedLength (parse bytes).records ≤ cap) :
    decodeStream bytes cap = .done (expandAll (parse bytes).records) := by
  have h := decodeStream_assemble_append (wf_of_mem_parse bytes) [] hcap
  rw [List.append_nil, ← eq_assemble_of_wellFormedStream (Option.isNone_iff_eq_none.2 ht)] at h
  simpa [DecodeResult.after] using h

/-- Behind records that fit, the one cut short is where the decode ends (R109 (b), R171). -/
theorem decodeStream_of_truncatedAt (ht : (parse bytes).truncatedAt = some k)
    (hcap : expandedLength (parse bytes).records ≤ cap) :
    decodeStream bytes cap = .failed .truncatedInput k (expandAll (parse bytes).records) := by
  obtain ⟨rfl, c, rest, hbytes, hshort⟩ := eq_append_of_truncatedAt ht
  have h := decodeStream_assemble_append (wf_of_mem_parse bytes) (c :: rest) hcap
  rw [← hbytes, decodeStream_of_short hshort] at h
  simpa [DecodeResult.after] using h

/-- The first record that does not fit is where the decode ends, whatever stands behind it (R172, R176). -/
theorem decodeStream_of_first_overflow (hrecords : (parse bytes).records = before ++ r :: after)
    (hle : expandedLength before ≤ cap) (hlt : cap < expandedLength before + r.count) :
    decodeStream bytes cap = .failed .outputOverflow (assemble before).length (expandAll before) := by
  obtain ⟨tail, hbytes⟩ := exists_eq_assemble_append bytes
  have hwf := wf_of_mem_parse bytes
  rw [hrecords] at hbytes hwf
  obtain ⟨hbefore, hr⟩ := List.forall_mem_append.1 hwf
  rw [hbytes, assemble_append, assemble, List.append_assoc, List.append_assoc]
  exact decodeStream_overflow_after hbefore (hr r List.mem_cons_self) _ hle hlt

/-- Settles O46: three outcomes, by whether all records fit and, if so, by whether the parse names a truncated one. -/
theorem decodeOutcomeFollowsFromTheParse : Obligations.DecodeOutcomeFollowsFromTheParse := by
  intro bytes cap
  refine ⟨fun hcap => ?_, fun hcap => ?_⟩
  · cases ht : (parse bytes).truncatedAt with
    | none => exact decodeStream_of_whole ht hcap
    | some k => exact decodeStream_of_truncatedAt ht hcap
  · obtain ⟨before, r, after, hrecords, hle, hlt⟩ := exists_first_overflow hcap
    exact ⟨before, r, after, hrecords, hle, hlt, decodeStream_of_first_overflow hrecords hle hlt⟩

/-! ### Registers outside `RUN` -/

/-- A decoder's step leaves the delta unit's registers (R103, R105). -/
theorem decStep_keeps_und (h : decStep s = .next t) : t.und = s.und := by
  rcases decStep_cases h with ⟨_, rfl⟩ | ⟨_, h⟩
  · rfl
  · obtain ⟨_, _, _, ⟨rfl, _⟩ | ⟨rfl, _⟩ | ⟨_, _, _, _, _, _, rfl, _⟩⟩ := decRecord_cases h <;> rfl

/-- A delta unit's step leaves the decoder's registers (R131). -/
theorem undStep_keeps_dec (h : undStep s = .next t) : t.dec = s.dec := by
  rcases undStep_cases h with ⟨_, rfl⟩ | ⟨_, h⟩
  · rfl
  · obtain ⟨_, _, _, _, _, _, _, rfl⟩ := undElement_cases h
    rfl

/-- Of the host's moves, besides a reset, only its own start command writes a unit's registers (R150, R152, R155, R211). -/
theorem command_keeps_registers (hreset : ∀ l, c ≠ .reset l) (h : command c s = .next t) :
    (c ≠ .decStart → t.dec = s.dec) ∧ (c ≠ .undStart → t.und = s.und) := by
  cases c with
  | reset l => exact absurd rfl (hreset l)
  | decStart =>
    rcases decStart_cases h with ⟨_, rfl⟩ | ⟨_, _, rfl⟩ <;> exact ⟨fun hne => absurd rfl hne, fun _ => rfl⟩
  | undStart =>
    rcases undStart_cases h with ⟨_, rfl⟩ | ⟨_, _, rfl⟩ | ⟨_, _, _, rfl⟩ <;>
      exact ⟨fun _ => rfl, fun hne => absurd rfl hne⟩
  | readPort p =>
    obtain ⟨_, _, e, _⟩ := doReadPort_eq p s
    obtain rfl := Host.Outcome.next.inj (e.symm.trans h)
    exact ⟨fun _ => s.release_dec p, fun _ => s.release_und p⟩
  | bind sp w =>
    obtain ⟨_, rfl⟩ := doBind_eq_next.1 h
    exact ⟨fun _ => rfl, fun _ => rfl⟩
  | drive p v =>
    obtain rfl := Host.Outcome.next.inj h
    exact ⟨fun _ => rfl, fun _ => rfl⟩
  | write a b =>
    obtain ⟨_, rfl⟩ := doWrite_eq_next.1 h
    exact ⟨fun _ => rfl, fun _ => rfl⟩
  | read a =>
    obtain ⟨_, _, _, rfl⟩ := doRead_eq_next.1 h
    exact ⟨fun _ => rfl, fun _ => rfl⟩

theorem takeTurn_keeps_dec (hr : s.dec.status ≠ .run) (hstart : x ≠ .host .decStart) (hreset : ∀ l, x ≠ .host (.reset l))
    (h : takeTurn x s = .next t) : t.dec = s.dec := by
  cases x with
  | dec =>
    rcases takeTurn_dec_cases h with ⟨hrun, _⟩ | ⟨_, rfl⟩
    · exact absurd hrun hr
    · rfl
  | und =>
    rcases takeTurn_und_cases h with ⟨_, h⟩ | ⟨_, rfl⟩
    · exact undStep_keeps_dec h
    · rfl
  | host c =>
    obtain ⟨hdec, _⟩ := command_keeps_registers (fun l e => hreset l (congrArg Turn.host e)) h
    exact hdec fun e => hstart (congrArg Turn.host e)

theorem takeTurn_keeps_und (hr : s.und.status ≠ .run) (hstart : x ≠ .host .undStart) (hreset : ∀ l, x ≠ .host (.reset l))
    (h : takeTurn x s = .next t) : t.und = s.und := by
  cases x with
  | dec =>
    rcases takeTurn_dec_cases h with ⟨_, h⟩ | ⟨_, rfl⟩
    · exact decStep_keeps_und h
    · rfl
  | und =>
    rcases takeTurn_und_cases h with ⟨hrun, _⟩ | ⟨_, rfl⟩
    · exact absurd hrun hr
    · rfl
  | host c =>
    obtain ⟨_, hund⟩ := command_keeps_registers (fun l e => hreset l (congrArg Turn.host e)) h
    exact hund fun e => hstart (congrArg Turn.host e)

/-- A free turn is no move of the host (log entry 4). -/
theorem State.freeTurn_ne_host (s : State) (c : Command) : s.freeTurn ≠ .host c := by
  unfold State.freeTurn
  split <;> nofun

/-- Every step is a turn, and a turn of the host is one that stands first in the list (R18; log entry 4). -/
theorem step_eq_takeTurn (s : State) :
    ∃ x, step s = takeTurn x { s with turns := s.turns.tail } ∧ ∀ c, x = .host c → ∃ rest, s.turns = .host c :: rest := by
  cases hturns : s.turns with
  | nil =>
    refine ⟨s.freeTurn, ?_, fun c e => absurd e (s.freeTurn_ne_host c)⟩
    rw [step_of_no_turn hturns, freeRun_eq_takeTurn, List.tail_nil, ← hturns]
  | cons x rest => exact ⟨x, step_of_turn hturns, fun _ e => ⟨rest, by rw [e]⟩⟩

/-- Settles O38: a unit's registers change in its own step, which it has in `RUN` only, and by the host's moves excluded. -/
theorem resultsAreSticky : Obligations.ResultsAreSticky := by
  intro s t h
  obtain ⟨x, hstep, hlisted⟩ := step_eq_takeTurn s
  rw [hstep] at h
  have hne : ∀ c, (∀ rest, s.turns ≠ .host c :: rest) → x ≠ .host c := fun c hfirst e => (hlisted c e).elim hfirst
  refine ⟨fun hr hstart hreset => ?_, fun hr hstart hreset => ?_⟩
  · exact takeTurn_keeps_dec (s := { s with turns := s.turns.tail }) hr (hne _ hstart) (fun l => hne _ (hreset l)) h
  · exact takeTurn_keeps_und (s := { s with turns := s.turns.tail }) hr (hne _ hstart) (fun l => hne _ (hreset l)) h

end Sys2Proof.Machine
end

section
/-! PROOFS of 70_reset_and_hazards: driving a port (R211), the host kept off buffers in a unit's hands (R207), a reset at any
time (R200, R201), and that the steps of the two units commute (R212). -/

namespace Sys2Proof.Machine

variable {s t a b c d : State} {sp sp' : Space} {n k x : Nat} {lo hi lo' hi' : Nat}

/-! ### Driving a port -/

theorem InPorts.set_decLen (q : InPorts) (v : Nat) (p : InPort) :
    (q.set v p).decLen = if p = .decLen then v else q.decLen := by cases p <;> rfl

theorem InPorts.set_decCap (q : InPorts) (v : Nat) (p : InPort) :
    (q.set v p).decCap = if p = .decCap then v else q.decCap := by cases p <;> rfl

theorem InPorts.set_undBlen (q : InPorts) (v : Nat) (p : InPort) :
    (q.set v p).undBlen = if p = .undBlen then v else q.undBlen := by cases p <;> rfl

theorem InPorts.set_undElen (q : InPorts) (v : Nat) (p : InPort) :
    (q.set v p).undElen = if p = .undElen then v else q.undElen := by cases p <;> rfl

/-- Settles O32: the drive is `InPorts.set`, one lemma for each port. -/
theorem drivingAPortChangesOnlyThePort : Obligations.DrivingAPortChangesOnlyThePort := fun s _ p v hturns =>
  ⟨_, step_of_drive hturns, s.ports.set_decLen v p, s.ports.set_decCap v p, s.ports.set_undBlen v p,
    s.ports.set_undElen v p⟩

/-! ### Buffers in a unit's hands -/

/-- Every index of a buffer in a unit's hands is held memory (R207). -/
theorem State.addressHeld_of_address (hheld : s.spaceHeld sp = true) (ha : s.address sp k = some x) :
    s.addressHeld x = true := by
  have hholds : Buffer.holds (s.window sp) x = true := Buffer.holds_of_address ha
  unfold State.addressHeld
  cases sp <;> simp only [State.spaceHeld, State.window] at hheld hholds <;> simp [hheld, hholds]

theorem doWrite_of_held {v : Byte} (h : s.addressHeld x = true) : doWrite x v s = .refused .bufferInUse := if_pos h

theorem doRead_of_held (h : s.addressHeld x = true) : doRead x s = .refused .bufferInUse := if_pos h

theorem doBind_of_held {w : Option Buffer} (h : s.spaceHeld sp = true) : doBind sp w s = .refused .bufferInUse := if_pos h

/-- Settles O29: taking the move off the list changes no hand-over bit and no binding. -/
theorem heldBuffersAreRefusedToTheHost : Obligations.HeldBuffersAreRefusedToTheHost := by
  intro s rest sp k x v w hspace ha
  have hheld := State.addressHeld_of_address hspace ha
  refine ⟨fun hturns => ?_, fun hturns => ?_, fun hturns => ?_⟩
  · exact (step_of_turn hturns).trans (doWrite_of_held (s := { s with turns := rest }) hheld)
  · exact (step_of_turn hturns).trans (doRead_of_held (s := { s with turns := rest }) hheld)
  · exact (step_of_turn hturns).trans (doBind_of_held (s := { s with turns := rest }) (by cases sp <;> exact hspace))

/-! ### A reset at any time -/

/-- Free values are values: after a reset's scramble every byte that was written, or that is in the range, is (R201). -/
theorem State.scramble_written
    (h : (∃ v, s.mem.read x = some v) ∨ ∃ k < n, s.address sp k = some x) :
    ∃ v, (s.scramble sp n).mem.read x = some v := by
  induction n with
  | zero => exact h.resolve_right fun ⟨_, hk, _⟩ => absurd hk (Nat.not_lt_zero _)
  | succ n ih =>
    have haddr : (s.scramble sp n).address sp n = s.address sp n := by
      obtain ⟨⟨m, f, e⟩, _⟩ := s.scramble_spec sp n
      rw [e]
      exact State.address_congr rfl sp n
    have hold : s.address sp n ≠ some x → ∃ v, (s.scramble sp n).mem.read x = some v := fun hne =>
      ih (h.imp_right fun ⟨k, hk, hx⟩ =>
        ⟨k, lt_of_le_of_ne (Nat.le_of_lt_succ hk) (by rintro rfl; exact hne hx), hx⟩)
    simp only [State.scramble, haddr]
    cases ha : s.address sp n with
    | none => exact hold (by simp [ha])
    | some y =>
      by_cases hxy : x = y
      · exact ⟨_, by rw [hxy]; exact Memory.read_write_same _ y _⟩
      · obtain ⟨v, hv⟩ := hold (by simp [ha, Ne.symm hxy])
        exact ⟨v, (Memory.read_write_other _ _ hxy).trans hv⟩

/-- How many bytes of `OUT` a reset now leaves unspecified (R201). -/
def State.outAtRisk (s : State) : Nat := if s.dec.status = .run then s.dec.cap else 0

/-- The same for `ENC`. -/
def State.encAtRisk (s : State) : Nat := if s.und.status = .run then s.und.n else 0

theorem State.lt_outAtRisk : k < s.outAtRisk ↔ s.dec.status = .run ∧ k < s.dec.cap := by
  unfold State.outAtRisk
  split <;> simp [*]

theorem State.lt_encAtRisk : k < s.encAtRisk ↔ s.und.status = .run ∧ k < s.und.n := by
  unfold State.encAtRisk
  split <;> simp [*]

theorem State.scrambleOut_eq_scramble (s : State) : s.scrambleOut = s.scramble .out s.outAtRisk := by
  unfold State.scrambleOut State.outAtRisk
  split <;> rfl

theorem State.scrambleEnc_eq_scramble (s : State) : s.scrambleEnc = s.scramble .enc s.encAtRisk := by
  unfold State.scrambleEnc State.encAtRisk
  split <;> rfl

/-- What is unspecified in `OUT` does not change what is at risk in `ENC`, nor where that lies. -/
theorem State.scrambleOut_keeps_enc (s : State) :
    s.scrambleOut.encAtRisk = s.encAtRisk ∧ ∀ sp k, s.scrambleOut.address sp k = s.address sp k := by
  obtain ⟨m, f, e⟩ := s.scrambleOut_eq
  rw [e]
  exact ⟨rfl, State.address_congr rfl⟩

theorem State.resetUnits_mem (s : State) : s.resetUnits.mem = s.scrambleOut.scrambleEnc.mem := rfl

/-- A byte at no risk is as it was (R201). -/
theorem State.resetUnits_read (hout : ∀ k < s.outAtRisk, s.address .out k ≠ some x)
    (henc : ∀ k < s.encAtRisk, s.address .enc k ≠ some x) : s.resetUnits.mem.read x = s.mem.read x := by
  obtain ⟨hrisk, haddr⟩ := s.scrambleOut_keeps_enc
  obtain ⟨_, _, sameEnc⟩ := s.scrambleOut.scramble_spec .enc s.encAtRisk
  obtain ⟨_, _, sameOut⟩ := s.scramble_spec .out s.outAtRisk
  rw [State.resetUnits_mem, State.scrambleEnc_eq_scramble, hrisk, sameEnc x fun k _ hk => (haddr .enc k).symm ▸ henc k hk,
    State.scrambleOut_eq_scramble, sameOut x fun k _ hk => hout k hk]

/-- A byte at risk holds some byte (R201; log entry 11). -/
theorem State.resetUnits_written
    (h : (∃ k < s.outAtRisk, s.address .out k = some x) ∨ ∃ k < s.encAtRisk, s.address .enc k = some x) :
    ∃ v, s.resetUnits.mem.read x = some v := by
  obtain ⟨hrisk, haddr⟩ := s.scrambleOut_keeps_enc
  rw [State.resetUnits_mem, State.scrambleEnc_eq_scramble, hrisk]
  refine State.scramble_written (h.imp (fun hout => ?_) fun ⟨k, hk, hx⟩ => ⟨k, hk, (haddr .enc k).trans hx⟩)
  rw [State.scrambleOut_eq_scramble]
  exact State.scramble_written (.inr hout)

/-- Settles O34: the move is `resetUnits` of the state with the move off the list, which has the same buffers at risk. -/
theorem resetOverridesEverything : Obligations.ResetOverridesEverything := by
  intro s rest coinciding hturns
  have haddr : ∀ sp k, ({ s with turns := rest } : State).address sp k = s.address sp k := State.address_congr rfl
  obtain ⟨m, f, e⟩ := ({ s with turns := rest } : State).resetUnits_eq
  refine ⟨_, step_of_turn hturns, by rw [e], rfl, rfl, rfl, by rw [e], by rw [e], fun x hout henc => ?_,
    fun hr k hk x hx => ?_, fun hr k hk x hx => ?_⟩
  · refine State.resetUnits_read (fun k hk => ?_) (fun k hk => ?_)
    · obtain ⟨hr, hk⟩ := State.lt_outAtRisk.1 hk
      exact (haddr .out k).symm ▸ hout hr k hk
    · obtain ⟨hr, hk⟩ := State.lt_encAtRisk.1 hk
      exact (haddr .enc k).symm ▸ henc hr k hk
  · exact State.resetUnits_written (.inl ⟨k, State.lt_outAtRisk.2 ⟨hr, hk⟩, (haddr .out k).trans hx⟩)
  · exact State.resetUnits_written (.inr ⟨k, State.lt_encAtRisk.2 ⟨hr, hk⟩, (haddr .enc k).trans hx⟩)

/-! ### The two units' steps commute -/

theorem decStep_only (h : decStep s = .next t) : s.OnlyDecAndMemory t := by
  rcases decStep_cases h with ⟨_, rfl⟩ | ⟨_, h⟩
  · rfl
  · obtain ⟨_, _, _, ⟨rfl, _⟩ | ⟨rfl, _⟩ | ⟨_, _, _, _, _, _, rfl, _⟩⟩ := decRecord_cases h <;> rfl

theorem undStep_only (h : undStep s = .next t) : s.OnlyUndAndMemory t := by
  rcases undStep_cases h with ⟨_, rfl⟩ | ⟨_, h⟩
  · rfl
  · obtain ⟨_, _, _, _, _, _, _, rfl⟩ := undElement_cases h
    rfl

/-- All a decoder's step reads is the same in both states: its registers, the bindings and `IN` (R101, R103). -/
structure State.SameForDec (s c : State) : Prop where
  regs : c.dec = s.dec
  binding : c.binding = s.binding
  stream : ∀ k, c.peek .inp k = s.peek .inp k

/-- The same for the delta unit, which reads `BASE` and `ENC` (R131). -/
structure State.SameForUnd (s c : State) : Prop where
  regs : c.und = s.und
  binding : c.binding = s.binding
  base : ∀ k, c.peek .base k = s.peek .base k
  enc : ∀ k, c.peek .enc k = s.peek .enc k

theorem State.SameForDec.symm (h : s.SameForDec c) : c.SameForDec s :=
  ⟨h.regs.symm, h.binding.symm, fun k => (h.stream k).symm⟩

theorem State.SameForUnd.symm (h : s.SameForUnd c) : c.SameForUnd s :=
  ⟨h.regs.symm, h.binding.symm, fun k => (h.base k).symm, fun k => (h.enc k).symm⟩

/-- A decoder's step changes nothing a running delta unit reads (R63, R69). -/
theorem decStep_sameForUnd (hs : s.Inv) (hd : s.dec.status = .run) (hu : s.und.status = .run)
    (h : decStep s = .next a) : s.SameForUnd a := by
  obtain ⟨hb, _⟩ := decStep_frame h
  obtain ⟨_, hkeep⟩ := unitsNeverWriteWhatTheyOnlyRead.1 s a hs hd h
  exact ⟨decStep_keeps_und h, hb, fun k => (hkeep hu k).1, fun k => (hkeep hu k).2⟩

/-- A delta unit's step changes nothing a running decoder reads (R63, R69). -/
theorem undStep_sameForDec (hs : s.Inv) (hd : s.dec.status = .run) (hu : s.und.status = .run)
    (h : undStep s = .next c) : s.SameForDec c := by
  obtain ⟨hb, _⟩ := undStep_frame h
  obtain ⟨_, hkeep⟩ := unitsNeverWriteWhatTheyOnlyRead.2 s c hs hu h
  exact ⟨undStep_keeps_dec h, hb, fun k => (hkeep hd k).1⟩

/-- What a decoder's step does is told by what it reads: the same registers and the same bytes written (R100 to R105). -/
theorem decStep_of_sameForDec (hsame : s.SameForDec c) (hcap : s.dec.cap ≤ Buffer.sizeOf s.binding.out)
    (h : decStep s = .next a) :
    ∃ d, decStep c = .next d ∧ d.dec = a.dec ∧ ∀ k, s.dec.o ≤ k → k < a.dec.o → d.peek .out k = a.peek .out k := by
  obtain ⟨hregs, hbinding, hstream⟩ := hsame
  rcases decStep_cases h with ⟨hend, rfl⟩ | ⟨hne, h⟩
  · exact ⟨_, if_pos (by rwa [hregs]), by simp [hregs], fun k h1 h2 => absurd h2 (not_lt.2 h1)⟩
  · rw [decStep_of_ne (by rwa [hregs])]
    obtain ⟨x, hlt, hx, hcases⟩ := decRecord_cases h
    have hx : c.peek .inp c.dec.i = some x := by rw [hregs, hstream, hx]
    rcases hcases with ⟨rfl, hin⟩ | ⟨rfl, hin, hout⟩ | ⟨body, i, m, hlen, hbody, hd, rfl, hin, hout, _, _, holds⟩
    · exact ⟨_, decRecord_truncated (by rwa [hregs]) hx (by rwa [hregs]), by simp [hregs],
        fun k h1 h2 => absurd h2 (not_lt.2 h1)⟩
    · exact ⟨_, decRecord_overflow (by rwa [hregs]) hx (by rwa [hregs]) (by rwa [hregs]), by simp [hregs],
        fun k h1 h2 => absurd h2 (not_lt.2 h1)⟩
    · obtain ⟨hwf, hilen, hcount, hexp, _⟩ := decodeRecord_wf hd
      have hbody : c.Holds .inp (c.dec.i + 1) body := hregs ▸ hbody.congr fun j _ _ => hstream j
      obtain ⟨d, hexec, _, hdec, hholds, _⟩ := exec_completes (s := c) hwf (by rwa [hregs, hilen])
        (by rwa [hregs, hcount]) (by rwa [hregs, hbinding])
      refine ⟨d, (decRecord_runs hx hlen (by rwa [hregs]) hbody hd).trans hexec, by rw [hdec, hregs, hilen, hcount],
        fun k h1 h2 => ?_⟩
      rw [hregs] at hholds
      obtain ⟨j, rfl⟩ := Nat.exists_eq_add_of_le h1
      have hj : j < i.expansion.length := by rw [hexp]; exact Nat.lt_of_add_lt_add_left h2
      exact (hholds.get j hj).trans (holds.get j hj).symm

/-- What a delta unit's step does is told by what it reads (R131, R133). -/
theorem undStep_of_sameForUnd (hsame : s.SameForUnd c) (h : undStep s = .next a) :
    ∃ d, undStep c = .next d ∧ d.und = a.und ∧ ∀ k, s.und.j ≤ k → k < a.und.j → d.peek .enc k = a.peek .enc k := by
  obtain ⟨hregs, _, hbase, henc⟩ := hsame
  rcases undStep_cases h with ⟨hend, rfl⟩ | ⟨hne, helem⟩
  · exact ⟨_, undStep_of_eq (by rwa [hregs]), by simp [hregs], fun k h1 h2 => absurd h2 (not_lt.2 h1)⟩
  · obtain ⟨b, e, _, hj, hb, he, _⟩ := undElement_cases helem
    obtain ⟨a', ha, _, hund, hpeek, _⟩ := undStep_replaces hj hb he
    obtain rfl := Host.Outcome.next.inj (ha.symm.trans h)
    obtain ⟨d, hd, _, hund', hpeek', _⟩ := undStep_replaces (s := c) (b := b) (e := e) (by rwa [hregs])
      (by rw [hregs, hbase, hb]) (by rw [hregs, henc, he])
    refine ⟨d, hd, by rw [hund', hund, hregs], fun k h1 h2 => ?_⟩
    rw [hund] at h2
    obtain rfl : k = s.und.j := Nat.le_antisymm (Nat.le_of_lt_succ h2) h1
    rw [hregs] at hpeek'
    exact hpeek'.trans hpeek.symm

theorem State.peek_of_address (h : s.address sp k = some x) : s.peek sp k = s.mem.read x := by
  simp only [State.peek, h]

/-- From `s` to `t` the bindings stand, and of memory the bytes of `sp[lo .. hi)` at most change. -/
structure State.WritesOnly (s t : State) (sp : Space) (lo hi : Nat) : Prop where
  binding : t.binding = s.binding
  same : s.SameMemoryBut t sp lo hi

theorem decStep_writesOnly (h : decStep s = .next t) : s.WritesOnly t .out s.dec.o t.dec.o := by
  obtain ⟨hb, same⟩ := decStep_frame h
  exact ⟨hb, same⟩

theorem undStep_writesOnly (h : undStep s = .next t) : s.WritesOnly t .enc s.und.j t.und.j := by
  obtain ⟨hb, same⟩ := undStep_frame h
  exact ⟨hb, same⟩

theorem State.WritesOnly.binding_trans (ha : s.WritesOnly a sp lo hi) (hb : a.WritesOnly b sp' lo' hi') :
    b.binding = s.binding := hb.binding.trans ha.binding

/-- Where the first writer wrote, the second one did not: the byte is the one that the first puts there in either order. -/
theorem State.WritesOnly.read_at_first (ha : s.WritesOnly a sp lo hi) (hb : a.WritesOnly b sp' lo' hi')
    (hdb : d.binding = s.binding) (hap : Buffer.overlap (s.window sp') (s.window sp) = false)
    (hwrite : ∀ k, lo ≤ k → k < hi → d.peek sp k = a.peek sp k) (hlo : lo ≤ k) (hhi : k < hi)
    (hx : s.address sp k = some x) : b.mem.read x = d.mem.read x := by
  rw [← State.window_congr ha.binding, ← State.window_congr ha.binding] at hap
  have hpeek : b.peek sp k = d.peek sp k := (hb.same.peek_apart hb.binding hap k).trans (hwrite k hlo hhi).symm
  have hxb : b.address sp k = some x := (State.address_congr (ha.binding_trans hb) sp k).trans hx
  have hxd : d.address sp k = some x := (State.address_congr hdb sp k).trans hx
  rwa [State.peek_of_address hxb, State.peek_of_address hxd] at hpeek

/-- Two writers of buffers that lie apart, each writing the same bytes whichever comes first, leave the same memory. -/
theorem State.WritesOnly.read_of_either_order (ha : s.WritesOnly a sp lo hi) (hb : a.WritesOnly b sp' lo' hi')
    (hc : s.WritesOnly c sp' lo' hi') (hd : c.WritesOnly d sp lo hi)
    (hap : Buffer.overlap (s.window sp) (s.window sp') = false)
    (hwrite : ∀ k, lo ≤ k → k < hi → d.peek sp k = a.peek sp k)
    (hwrite' : ∀ k, lo' ≤ k → k < hi' → b.peek sp' k = c.peek sp' k) (x : Nat) : b.mem.read x = d.mem.read x := by
  by_cases hfirst : ∃ k, lo ≤ k ∧ k < hi ∧ s.address sp k = some x
  · obtain ⟨k, hlo, hhi, hx⟩ := hfirst
    rw [Buffer.overlap_comm] at hap
    exact ha.read_at_first hb (hc.binding_trans hd) hap hwrite hlo hhi hx
  by_cases hsecond : ∃ k, lo' ≤ k ∧ k < hi' ∧ s.address sp' k = some x
  · obtain ⟨k, hlo, hhi, hx⟩ := hsecond
    exact (hc.read_at_first hd (ha.binding_trans hb) hap hwrite' hlo hhi hx).symm
  · have hnot : ∀ k, lo ≤ k → k < hi → s.address sp k ≠ some x := fun k h1 h2 hx => hfirst ⟨k, h1, h2, hx⟩
    have hnot' : ∀ k, lo' ≤ k → k < hi' → s.address sp' k ≠ some x := fun k h1 h2 hx => hsecond ⟨k, h1, h2, hx⟩
    calc b.mem.read x = a.mem.read x := hb.same x (by simpa only [State.address_congr ha.binding] using hnot')
      _ = s.mem.read x := ha.same x hnot
      _ = c.mem.read x := (hc.same x hnot').symm
      _ = d.mem.read x := (hd.same x (by simpa only [State.address_congr hc.binding] using hnot)).symm

/-- The state after a decoder's and a delta unit's step, in either order, is told by the registers and memory. -/
theorem State.eq_of_only (ha : s.OnlyDecAndMemory a) (hb : a.OnlyUndAndMemory b) (hc : s.OnlyUndAndMemory c)
    (hd : c.OnlyDecAndMemory d) (hdec : d.dec = a.dec) (hund : b.und = c.und) (hmem : b.mem = d.mem) : b = d := by
  unfold State.OnlyDecAndMemory at ha hd
  unfold State.OnlyUndAndMemory at hb hc
  rw [hb, hd, ha, hc]
  simp only [hdec, hund, hmem]

/-- The two orders of one step each, if both go through, end in the same state (R212). -/
theorem unitSteps_diamond (hs : s.Inv) (hrd : s.dec.status = .run) (hru : s.und.status = .run)
    (ha : decStep s = .next a) (hb : undStep a = .next b) (hc : undStep s = .next c) (hd : decStep c = .next d) :
    b = d := by
  have hfirst := decStep_sameForUnd hs hrd hru ha
  have hsecond := undStep_sameForDec hs hrd hru hc
  obtain ⟨d', hd', hdec, hout⟩ := decStep_of_sameForDec hsecond (hs.decLaunched hrd).outFits ha
  obtain rfl := Host.Outcome.next.inj (hd'.symm.trans hd)
  obtain ⟨b', hb', hund, henc⟩ := undStep_of_sameForUnd hfirst hc
  obtain rfl := Host.Outcome.next.inj (hb'.symm.trans hb)
  refine State.eq_of_only (decStep_only ha) (undStep_only hb) (undStep_only hc) (decStep_only hd) hdec hund ?_
  obtain ⟨_, _, hapart⟩ := State.unitsCollide_eq_false.1 (hs.unitsApart hrd hru)
  have hwb : a.WritesOnly b' .enc s.und.j c.und.j := hfirst.regs ▸ hund ▸ undStep_writesOnly hb
  have hwd : c.WritesOnly d' .out s.dec.o a.dec.o := hsecond.regs ▸ hdec ▸ decStep_writesOnly hd
  have hbInv : b'.Inv := undStep_inv (decStep_inv hs hrd ha) (hfirst.regs ▸ hru) hb
  have hdInv : d'.Inv := decStep_inv (undStep_inv hs hru hc) (hsecond.regs ▸ hrd) hd
  exact Memory.ext_of_wf hbInv.memWf hdInv.memWf <|
    (decStep_writesOnly ha).read_of_either_order hwb (undStep_writesOnly hc) hwd hapart hout henc

/-- Settles O43: what a unit reads is not touched by the other's step, so the other order goes through too; then the diamond
closes. -/
theorem unitStepsCommute : Obligations.UnitStepsCommute := by
  intro s b hs hrd hru
  have hfits := (hs.decLaunched hrd).outFits
  constructor
  · rintro ⟨a, ha, hb⟩
    obtain ⟨c, hc, _⟩ := undStep_of_sameForUnd (decStep_sameForUnd hs hrd hru ha).symm hb
    obtain ⟨d, hd, _⟩ := decStep_of_sameForDec (undStep_sameForDec hs hrd hru hc) hfits ha
    obtain rfl := unitSteps_diamond hs hrd hru ha hb hc hd
    exact ⟨c, hc, hd⟩
  · rintro ⟨c, hc, hd⟩
    have hsame := undStep_sameForDec hs hrd hru hc
    obtain ⟨a, ha, _⟩ := decStep_of_sameForDec hsame.symm (by rwa [hsame.regs, hsame.binding]) hd
    obtain ⟨b', hb', _⟩ := undStep_of_sameForUnd (decStep_sameForUnd hs hrd hru ha) hc
    obtain rfl := unitSteps_diamond hs hrd hru ha hb' hc hd
    exact ⟨a, ha, hb'⟩

end Sys2Proof.Machine
end
